-- ==== Sys2Proof/Word.lean ====
section
/-! DEFINITION. The two widths of the machine: a byte of a stream or of an image (R8 `u8`) and the u64 of every stack
element, operand and program index (R6, R8). -/

namespace Sys2Proof

/-- R8: `u8`, one byte of a program image or of a port. -/
abbrev Byte := BitVec 8

/-- R6, R8: `u64`, the width of a stack element, of a numeric operand and of the program counter. -/
abbrev Word := BitVec 64

end Sys2Proof
end

