-- ==== Sys2Proof/Machine/Flags.lean ====
section
/-! DEFINITION. The engine has no flags (10_state.md R28). What takes their place is the range check of each arithmetic
result, exact on the integers (42_alu.md R133), and the unsigned comparisons of the branches: here, once. -/

namespace Sys2Proof.Machine

/-- R130, R133: x + y; `none` where the sum is 2^64 or more and `ADD_WRAP` is false (ArithmeticError), and the sum less
2^64 where it is true. -/
def addChecked (wrap : Bool) (x y : Word) : Option Word :=
  let r := x.toNat + y.toNat
  if r < 2 ^ 64 then some (BitVec.ofNat 64 r)
  else if wrap then some (BitVec.ofNat 64 (r - 2 ^ 64))
  else none

/-- R131, R133: x - 1; `none` where x = 0. -/
def decChecked (x : Word) : Option Word :=
  if x.toNat = 0 then none else some (BitVec.ofNat 64 (x.toNat - 1))

/-- R132, R133: x + 1; `none` where x = 2^64 - 1. -/
def incChecked (x : Word) : Option Word :=
  if x.toNat = 2 ^ 64 - 1 then none else some (BitVec.ofNat 64 (x.toNat + 1))

/-- R140: the unsigned comparison x > y. -/
def isGreater (x y : Word) : Bool := decide (y.toNat < x.toNat)

/-- R141: x = y. -/
def isEqual (x y : Word) : Bool := decide (x = y)

/-- R154: bits [7:0] of a value; `none` where it is above 255 (ArithmeticError). -/
def byteChecked (x : Word) : Option Byte :=
  if x.toNat ≤ 255 then some (BitVec.ofNat 8 x.toNat) else none

/-- R153: a byte zero-extended to 64 bits. -/
def zeroExtend (b : Byte) : Word := BitVec.ofNat 64 b.toNat

end Sys2Proof.Machine
end

