-- ==== Sys2Proof/Config.lean ====
section
/-! DEFINITION. What a run is given from outside: the parameters of 00_scope.md R7 as plain data, and, as constants without a
body, the free values of 60_exceptions.md R202 and the endless inputs of 20_memory.md R52. The defaults of the parameters are in Machine/Defaults.lean. -/

namespace Sys2Proof

/-- The 13 opcodes, in the order of the table of R70. -/
inductive Opcode where
  | push | out | inLine | outStr | copy | add | gt | eq | jmp | dec | inc | inByte | outByte
  deriving DecidableEq, Repr

/-- R7, R72: the parameter `TAG_MAP`, one tag byte for each opcode. -/
structure TagMap where
  push : Byte
  out : Byte
  inLine : Byte
  outStr : Byte
  copy : Byte
  add : Byte
  gt : Byte
  eq : Byte
  jmp : Byte
  dec : Byte
  inc : Byte
  inByte : Byte
  outByte : Byte
  deriving DecidableEq, Repr

/-- R7: the parameter `IN_EOF_PARTIAL`, what In does with bytes followed by end-of-input without 0x0A. -/
inductive EofPartial where
  | parse | parseError
  deriving DecidableEq, Repr

/-- R7: the named parameters of the model. `stackCap = none` is the unbounded stack. -/
structure Params where
  /-- `TAG_MAP` (D1) -/
  tags : TagMap
  /-- `STACK_CAP` (D4); `none` is unbounded -/
  stackCap : Option Nat
  /-- `PROG_CAP` (D5) -/
  progCap : Nat
  /-- `ADD_WRAP` (D7) -/
  addWrap : Bool
  /-- `IN_TRIM` (D9) -/
  inTrim : Bool
  /-- `IN_EOF_PARTIAL` (D9) -/
  inEofPartial : EofPartial
  deriving DecidableEq, Repr

/-- Free value: the elements of S after the n-th error of a history. R202 leaves S unspecified after HALTED_ERROR
(DEDUCED, log 12). Safe: nothing can be proved of it. -/
opaque Config.errorStack : Nat → List Word

/-- Free value: pc after the n-th error of a history (R202; DEDUCED, log 12). Safe. -/
opaque Config.errorPc : Nat → Word

/-- Free value: the input read position after the n-th error of a history (R202; DEDUCED, log 12). Safe. -/
opaque Config.errorInPos : Nat → Nat

/-- Free value: the byte at place `k` of the endless input `src` (R52: "or an infinite sequence of bytes"). It has no body, so
whatever is proved of it holds of every sequence (DESIGN CHOICE, log 5). Safe. -/
opaque Config.endlessByte : (src k : Nat) → Byte

end Sys2Proof
end

