-- ==== Sys2Proof/Machine/Defaults.lean ====
section
/-! DEFINITION. The tag of each opcode under a tag map, and the default value of every parameter (00_scope.md R7,
30_encoding.md R72). -/

namespace Sys2Proof

/-- The opcodes in the order of the table of R70. -/
def Opcode.all : List Opcode :=
  [.push, .out, .inLine, .outStr, .copy, .add, .gt, .eq, .jmp, .dec, .inc, .inByte, .outByte]

/-- R72: the tag byte that a tag map gives an opcode. -/
def TagMap.tag (tm : TagMap) (op : Opcode) : Byte :=
  match op with
  | .push => tm.push
  | .out => tm.out
  | .inLine => tm.inLine
  | .outStr => tm.outStr
  | .copy => tm.copy
  | .add => tm.add
  | .gt => tm.gt
  | .eq => tm.eq
  | .jmp => tm.jmp
  | .dec => tm.dec
  | .inc => tm.inc
  | .inByte => tm.inByte
  | .outByte => tm.outByte

/-- R72, R78: the opcode whose tag a byte is; `none` for a byte that is not in the map. -/
def TagMap.opcodeOf (tm : TagMap) (b : Byte) : Option Opcode :=
  Opcode.all.find? (fun op => decide (tm.tag op = b))

/-- R72: the default tag map, the table's order (D1). -/
def TagMap.default : TagMap where
  push := 0x00
  out := 0x01
  inLine := 0x02
  outStr := 0x03
  copy := 0x04
  add := 0x05
  gt := 0x06
  eq := 0x07
  jmp := 0x08
  dec := 0x09
  inc := 0x0A
  inByte := 0x0B
  outByte := 0x0C

/-- R7: every parameter at its default. -/
def Params.default : Params where
  tags := TagMap.default
  stackCap := none
  progCap := 2 ^ 64 - 1
  addWrap := false
  inTrim := false
  inEofPartial := .parse

end Sys2Proof
end

