-- ==== Sys2Proof/Machine/Status.lean ====
section
/-! DEFINITION. The run status STATUS of 10_state.md R25: its fields as closed types, their codes, and the 32-bit word the
host reads. Reserved codes are not values of the types, so none is ever written (R25; log 20). -/

namespace Sys2Proof

/-- STATUS.STATE, bits [1:0] (R25, R100). -/
inductive RunState where
  | idle | running | haltedClean | haltedError
  deriving DecidableEq, Repr

/-- STATUS.HALT_CAUSE, bits [3:2] (R25, R205). -/
inductive HaltCause where
  | none | pcOverrun | inputEof
  deriving DecidableEq, Repr

/-- STATUS.ERR, bits [7:4] (R25, R200). -/
inductive Err where
  | none | format | parse | bounds | arithmetic | io | stackOverflow | operandAlias
  deriving DecidableEq, Repr

/-- STATUS.FMT_SUB, bits [11:8] (R25, R200). -/
inductive FmtSub where
  | none | unknownTag | truncated | invalidUtf8 | programTooLarge
  deriving DecidableEq, Repr

/-- R25: the fields of STATUS. -/
structure Status where
  state : RunState
  cause : HaltCause
  err : Err
  fmtSub : FmtSub
  deriving DecidableEq, Repr

/-- R25: the codes of STATE. -/
def RunState.code (x : RunState) : BitVec 2 :=
  match x with
  | .idle => 0
  | .running => 1
  | .haltedClean => 2
  | .haltedError => 3

/-- R25: the codes of HALT_CAUSE. -/
def HaltCause.code (x : HaltCause) : BitVec 2 :=
  match x with
  | .none => 0
  | .pcOverrun => 1
  | .inputEof => 2

/-- R25, R200: the codes of ERR. -/
def Err.code (x : Err) : BitVec 4 :=
  match x with
  | .none => 0
  | .format => 1
  | .parse => 2
  | .bounds => 3
  | .arithmetic => 4
  | .io => 5
  | .stackOverflow => 6
  | .operandAlias => 7

/-- R25, R200: the codes of FMT_SUB. -/
def FmtSub.code (x : FmtSub) : BitVec 4 :=
  match x with
  | .none => 0
  | .unknownTag => 1
  | .truncated => 2
  | .invalidUtf8 => 3
  | .programTooLarge => 4

/-- R25: the 32-bit STATUS word; bits [31:12] read as 0. -/
def Status.word (st : Status) : BitVec 32 :=
  (0#20 ++ st.fmtSub.code) ++ (st.err.code ++ (st.cause.code ++ st.state.code))

/-- STATUS right after reset: IDLE with every other field 0 (R25, R230). -/
def Status.idle : Status := ⟨.idle, .none, .none, .none⟩

/-- STATUS after a successful load: RUNNING with every other field 0 (R30, R231). -/
def Status.running : Status := ⟨.running, .none, .none, .none⟩

/-- STATUS after a clean halt (R101, R205). -/
def Status.clean (c : HaltCause) : Status := ⟨.haltedClean, c, .none, .none⟩

/-- STATUS after an error (R201). -/
def Status.error (e : Err) (sub : FmtSub) : Status := ⟨.haltedError, .none, e, sub⟩

end Sys2Proof
end

