-- ==== Sys2Proof/Syntax.lean ====
section
/-! DEFINITION. The decoded instructions of 30_encoding.md R70: one constructor per row of spec/opcode_table.json. -/

namespace Sys2Proof

/-- R70: "a closed tagged value, one variant per opcode". An operand named `p`, `a` or `b` is an offset from the top of
the stack, `v` an immediate, `t` an absolute index into program memory, `s` the bytes of a string. -/
inductive Instr where
  /-- Push(v), R120 -/
  | push (v : Word)
  /-- Out(p), R150 -/
  | out (p : Word)
  /-- In(), R151 -/
  | inLine
  /-- OutStr(s), R152 -/
  | outStr (s : List Byte)
  /-- Copy(p), R121 -/
  | copy (p : Word)
  /-- Add(a, b), R130 -/
  | add (a b : Word)
  /-- Gt(a, b, t), R140 -/
  | gt (a b t : Word)
  /-- Eq(a, b, t), R141 -/
  | eq (a b t : Word)
  /-- Jmp(t), R142 -/
  | jmp (t : Word)
  /-- Dec(p), R131 -/
  | dec (p : Word)
  /-- Inc(p), R132 -/
  | inc (p : Word)
  /-- InByte(), R153 -/
  | inByte
  /-- OutByte(p), R154 -/
  | outByte (p : Word)
  deriving DecidableEq, Repr

end Sys2Proof
end

