-- ==== Sys2Proof/Machine/State.lean ====
section
/-! DEFINITION. The state of the engine (10_state.md R20 to R30), the environment its ports meet (20_memory.md R50 to R55),
what stops a step, and the state right after reset. -/

namespace Sys2Proof.Machine

/-- R52: an infinite sequence of bytes. -/
inductive Endless where
  /-- a block of bytes over and over: `first :: rest`, never empty -/
  | repeating (first : Byte) (rest : List Byte)
  /-- the sequence of `Config.endlessByte src`, of which nothing is known (log 5) -/
  | free (src : Nat)
  deriving DecidableEq, Repr

/-- R52: what the input port answers after the bytes of `State.input`. -/
inductive InEnd where
  /-- `EOF`, for every later read of the run (R50) -/
  | eof
  /-- `IOERR`, for every later read of the run (R50) -/
  | ioerr
  /-- no answer yet: the engine waits (R50, R107) -/
  | stall
  /-- the bytes of an infinite sequence, for the rest of the run (R52) -/
  | endless (x : Endless)
  deriving DecidableEq, Repr

/-- R53: one move of the environment at the output port. -/
inductive OutReply where
  /-- accept up to `k` more bytes of the current write, and give no answer yet -/
  | accept (k : Nat)
  /-- accept what is left of the write and answer `OK` -/
  | ok
  /-- answer `IOERR`: what was accepted before stays accepted, the rest is not -/
  | ioerr
  deriving DecidableEq, Repr

/-- R53: what the output port does with a write once `State.outReplies` is used up. -/
inductive OutEnd where
  /-- it accepts every write and answers `OK` -/
  | ok
  /-- it answers every write with `IOERR` -/
  | ioerr
  /-- it does not answer yet: the engine waits (R53, R107) -/
  | stall
  deriving DecidableEq, Repr

/-- R55: what the host does in a turn. -/
inductive HostEvent where
  /-- nothing: the turn is the engine's -/
  | engineTurn
  /-- the reset request (R230) -/
  | reset
  /-- a program image is presented (R231) -/
  | load (image : List Byte)
  /-- further answers of the input port: these bytes, then `fin` (R50, R52) -/
  | answerInput (bytes : List Byte) (fin : InEnd)
  /-- further answers of the output port: these replies, then `fin` (R53) -/
  | answerOutput (replies : List OutReply) (fin : OutEnd)
  deriving DecidableEq, Repr

/-- R20: the architectural state `(P, S, pc, STATUS, ERR_INFO)` and the input read position; with them the parameters of
R7, the environment of R50 to R55, the port transfers in progress (R107, R215) and the counter of free values. -/
structure State where
  /-- P, program memory, indexed by instruction number (R22) -/
  prog : List Instr
  /-- S, the stack, bottom first: the last element is the top (R23) -/
  stack : List Word
  /-- pc, the index of the next instruction to fetch (R24) -/
  pc : Word
  /-- STATUS (R25) -/
  status : Status
  /-- ERR_INFO (R26) -/
  errInfo : Word
  /-- the input read position: how many input bytes the engine has consumed since reset (R27) -/
  inPos : Nat
  /-- the bytes of its line that a waiting In has consumed so far (R27, R107, R151) -/
  lineBuf : List Byte
  /-- how many bytes of the current write the environment has accepted while the engine waits (R53, R107) -/
  outTaken : Nat
  /-- the listed input bytes of this run, `b_0 .. b_{n-1}` (R52); read from `inPos` on -/
  input : List Byte
  /-- what the input port answers after them (R52) -/
  inEnd : InEnd
  /-- the bytes the environment has accepted, in order (R54) -/
  output : List Byte
  /-- the coming moves of the environment at the output port (R53) -/
  outReplies : List OutReply
  /-- what the output port does after them (R53) -/
  outEnd : OutEnd
  /-- what the host does in the coming turns (R55); when it is empty every turn is the engine's (log 3) -/
  events : List HostEvent
  /-- the parameters (R7), fixed for a run -/
  cfg : Params
  /-- the MODEL's own: which free value the next error takes (R202, log 12) -/
  freeIdx : Nat
  deriving DecidableEq, Repr

/-- Why a step may stop. The machine's own errors are no faults: they are entries to HALTED_ERROR (R201). -/
inductive Fault where
  /-- Raised by a load in IDLE (`State.hostLoad`) under parameters that R7 or R72 rules out: two opcodes with one tag byte,
  or `PROG_CAP` above 2^64 - 1. The spec gives no such machine. Safe (log 11). -/
  | badParams
  deriving DecidableEq, Repr

/-- Why a step may have no meaning. -/
inductive Refusal where
  /-- Raised by no instruction: every row of the opcode table has its meaning. Safe. -/
  | notModelled (mnemonic : String)
  deriving DecidableEq, Repr

/-- R30, R230: the machine right after reset, with every parameter at its default (R7). The environment's fields are the
model's choice (DESIGN CHOICE, log 6 and log 9): no input answered yet, every write accepted, no host request scheduled. -/
def State.reset : State where
  prog := []
  stack := []
  pc := 0
  status := Status.idle
  errInfo := 0
  inPos := 0
  lineBuf := []
  outTaken := 0
  input := []
  inEnd := .stall
  output := []
  outReplies := []
  outEnd := .ok
  events := []
  cfg := Params.default
  freeIdx := 0

end Sys2Proof.Machine
end

