-- ==== Sys2Proof/Machine/Text.lean ====
section
/-! DEFINITION. Text conversions (44_io.md R155, R156, R157). -/

namespace Sys2Proof.Machine

/-- R157: "newline" is the single byte 0x0A. -/
def newline : Byte := 0x0A

/-- R155: the byte of a decimal digit. -/
def digitByte (d : Nat) : Byte := BitVec.ofNat 8 (0x30 + d)

/-- The last `k` or fewer decimal digits of `n`, most significant first, without leading zeros. -/
def decDigits (k n : Nat) : List Byte :=
  match k with
  | 0 => []
  | j + 1 => if n < 10 then [digitByte n] else decDigits j (n / 10) ++ [digitByte (n % 10)]

/-- R155: `dec(v)`, "1 to 20 bytes long". -/
def decText (v : Word) : List Byte := decDigits 20 v.toNat

/-- R156: the byte is in 0x30..0x39. -/
def isDigit (b : Byte) : Bool := decide (0x30 ≤ b.toNat ∧ b.toNat ≤ 0x39)

/-- R156: ASCII whitespace. -/
def isSpace (b : Byte) : Bool :=
  decide (b ∈ ([0x09, 0x0A, 0x0B, 0x0C, 0x0D, 0x20] : List Byte))

/-- R156: "remove every leading and trailing byte" of whitespace. -/
def trimSpace (line : List Byte) : List Byte :=
  ((line.dropWhile isSpace).reverse.dropWhile isSpace).reverse

/-- R156: the value of a line of digits, from the first byte on. -/
def lineValue (line : List Byte) : Nat := line.foldl (fun acc b => acc * 10 + (b.toNat - 0x30)) 0

/-- R156: `parse_u64(line)`, where `none` stands for ParseError. -/
def parseU64 (trim : Bool) (line : List Byte) : Option Word :=
  let body := if trim then trimSpace line else line
  if body ≠ [] ∧ body.all isDigit = true ∧ lineValue body ≤ 2 ^ 64 - 1 then some (BitVec.ofNat 64 (lineValue body))
  else none

end Sys2Proof.Machine
end

