-- ==== Sys2Proof/Machine/Ops.lean ====
section
/-! DEFINITION. The named operations over the state that instructions share: push (R104), error entry (R201), clean halt
(R205), outcome and advance (R105), the input port (R50, R151) and the output port (R53). -/

namespace Sys2Proof.Machine

/-! ### Plain updates -/

/-- `pc <- t` (R9). -/
def State.setPc (s : State) (t : Word) : State := { s with pc := t }

/-- S as a whole. -/
def State.setStack (s : State) (stack : List Word) : State := { s with stack := stack }

/-- STATUS as a whole. -/
def State.setStatus (s : State) (status : Status) : State := { s with status := status }

/-- The line in progress of a waiting In. -/
def State.setLineBuf (s : State) (line : List Byte) : State := { s with lineBuf := line }

/-- The input port after bytes were consumed: the new read position, and the line in progress (R27, R151). -/
def State.setInput (s : State) (pos : Nat) (line : List Byte) : State := { s with inPos := pos, lineBuf := line }

/-- The output port after a write: what the environment has accepted, its replies left, and what it has accepted of a
write it has not answered (R53). -/
def State.setOutput (s : State) (output : List Byte) (replies : List OutReply) (taken : Nat) : State :=
  { s with output := output, outReplies := replies, outTaken := taken }

/-! ### Errors and clean halts -/

/-- R23: a stack keeps within `STACK_CAP`, an unspecified one too (log 13). -/
def boundStack (cap : Option Nat) (stack : List Word) : List Word :=
  match cap with
  | none => stack
  | some c => stack.take c

/-- R201: error entry, the one operation that every error takes. STATE <- HALTED_ERROR, ERR and FMT_SUB as given,
ERR_INFO <- info. R202: S, pc and the read position are unspecified from here on, so they take free values (log 12).
Output already accepted stays (R203). A transfer in progress ends (log 2). -/
def State.enterError (s : State) (e : Err) (sub : FmtSub) (info : Word) : State :=
  { s with
    status := Status.error e sub
    errInfo := info
    stack := boundStack s.cfg.stackCap (Config.errorStack s.freeIdx)
    pc := Config.errorPc s.freeIdx
    inPos := Config.errorInPos s.freeIdx
    lineBuf := []
    outTaken := 0
    freeIdx := s.freeIdx + 1 }

/-- R205: a clean halt with its cause; S and pc are left as they are. -/
def State.haltClean (s : State) (c : HaltCause) : State := s.setStatus (Status.clean c)

/-! ### Outcome and advance (R105) -/

/-- R105: how an instruction ends; R107 adds that it may have to wait for a port. -/
inductive Ending where
  | fallthrough
  | jump (t : Word)
  | haltClean (c : HaltCause)
  | raise (e : Err)
  | wait
  deriving DecidableEq, Repr

/-- R105: the cycle applies an outcome. `fallthrough` is pc <- pc + 1, `jump t` is pc <- t, the two halts leave pc to
R205 and R201 (the raising instruction's pc goes to ERR_INFO, R26), a wait leaves pc where it is (R107). -/
def conclude (e : Ending) (s : State) : Host.Outcome State Fault Refusal :=
  match e with
  | .fallthrough => .next (s.setPc (s.pc + 1))
  | .jump t => .next (s.setPc t)
  | .haltClean c => .next (s.haltClean c)
  | .raise k => .next (s.enterError k .none s.pc)
  | .wait => .next s

/-! ### Push (R104) -/

/-- R104: `push(v)`; `none` where `len(S) = STACK_CAP`, which is StackOverflowError. -/
def State.push (s : State) (v : Word) : Option State :=
  if s.cfg.stackCap = some s.stack.length then none else some (s.setStack (s.stack ++ [v]))

/-- An instruction whose last action is `push(v)` and that then falls through. -/
def concludePush (v : Word) (s : State) : Host.Outcome State Fault Refusal :=
  match s.push v with
  | none => conclude (.raise .stackOverflow) s
  | some s' => conclude .fallthrough s'

/-! ### The input port (R50, R51, R151) -/

/-- R50: what one `InRead()` is answered. -/
inductive InAnswer where
  | byte (b : Byte)
  | eof
  | ioerr
  /-- no answer yet -/
  | waiting
  deriving DecidableEq, Repr

/-- R52: the byte at place `k` of an infinite sequence. -/
def Endless.byte (x : Endless) (k : Nat) : Byte :=
  match x with
  | .repeating first rest => ((first :: rest)[k % (rest.length + 1)]?).getD first
  | .free src => Config.endlessByte src k

/-- R52: the answer at place `k` past the last listed byte. -/
def InEnd.answer (x : InEnd) (k : Nat) : InAnswer :=
  match x with
  | .endless e => .byte (e.byte k)
  | .eof => .eof
  | .ioerr => .ioerr
  | .stall => .waiting

/-- R50, R51, R52: the answer to the next `InRead()`: the listed byte at the one read position, or what follows the list. -/
def State.inAnswer (s : State) : InAnswer :=
  match s.input[s.inPos]? with
  | some b => .byte b
  | none => s.inEnd.answer (s.inPos - s.input.length)

/-- R50, R51: `InRead()`: a byte advances the read position by one. -/
def State.inRead (s : State) : InAnswer × State :=
  match s.inAnswer with
  | .byte b => (.byte b, s.setInput (s.inPos + 1) s.lineBuf)
  | .eof => (.eof, s)
  | .ioerr => (.ioerr, s)
  | .waiting => (.waiting, s)

/-- R151: the bytes up to the first 0x0A, without it, and whether there is one. -/
def takeLine (bs : List Byte) : List Byte × Bool :=
  match bs with
  | [] => ([], false)
  | b :: rest => if b = newline then ([], true) else (b :: (takeLine rest).1, (takeLine rest).2)

/-- R151: In's loop of `InRead()` over the listed bytes: whether the terminator was met (and consumed), and the
state with those bytes consumed and added to the line in progress. -/
def State.readLine (s : State) : Bool × State :=
  let r := takeLine (s.input.drop s.inPos)
  (r.2, s.setInput (s.inPos + r.1.length + (if r.2 then 1 else 0)) (s.lineBuf ++ r.1))

/-! ### The output port (R53) -/

/-- R53: how a write ends. -/
inductive WriteEnd where
  | ok
  | ioerr
  /-- no answer yet -/
  | waiting
  deriving DecidableEq, Repr

/-- What the environment does with a write: the bytes it accepts now, its replies left, and how the write ends. -/
structure WriteRun where
  accepted : List Byte
  left : List OutReply
  fin : WriteEnd
  deriving DecidableEq, Repr

/-- R53: the environment takes the rest of a write, reply by reply. -/
def offer (outEnd : OutEnd) (rest : List Byte) (replies : List OutReply) : WriteRun :=
  match replies with
  | [] =>
    match outEnd with
    | .ok => ⟨rest, [], .ok⟩
    | .ioerr => ⟨[], [], .ioerr⟩
    | .stall => ⟨[], [], .waiting⟩
  | .ok :: left => ⟨rest, left, .ok⟩
  | .ioerr :: left => ⟨[], left, .ioerr⟩
  | .accept k :: left =>
    let r := offer outEnd (rest.drop k) left
    ⟨rest.take k ++ r.accepted, r.left, r.fin⟩

/-- R53, R54, R107: `OutWrite(bytes)`. A write that waited goes on after the bytes already accepted. -/
def State.outWrite (s : State) (bytes : List Byte) : WriteEnd × State :=
  let r := offer s.outEnd (bytes.drop s.outTaken) s.outReplies
  let taken := match r.fin with
    | .ok => 0
    | .ioerr => 0
    | .waiting => s.outTaken + r.accepted.length
  (r.fin, s.setOutput (s.output ++ r.accepted) r.left taken)

/-- An instruction whose last action is `OutWrite(bytes)`: IOError on `IOERR`, else fall through (R150, R152, R154). -/
def concludeWrite (bytes : List Byte) (s : State) : Host.Outcome State Fault Refusal :=
  match s.outWrite bytes with
  | (.ok, s') => conclude .fallthrough s'
  | (.ioerr, s') => conclude (.raise .io) s'
  | (.waiting, s') => conclude .wait s'

end Sys2Proof.Machine
end

