-- ==== Sys2Proof/Machine/Operands.lean ====
section
/-! DEFINITION. The one operand form that names state: an offset from the top of the stack (40_execution_cycle.md R102,
R103). Immediates and targets are the operand values themselves (R13, R70). -/

namespace Sys2Proof.Machine

/-- R102: `resolve(k)`; `none` where `k >= len(S)`, which is BoundsError. The comparison is on unbounded integers. -/
def State.resolve (s : State) (k : Word) : Option Nat :=
  if k.toNat < s.stack.length then some (s.stack.length - 1 - k.toNat) else none

/-- R102, R103: the absolute index of an offset operand and the element it names, against the stack as it is now. -/
def State.operand (s : State) (k : Word) : Option (Nat × Word) :=
  match s.resolve k with
  | none => none
  | some i => (s.stack[i]?).map (fun v => (i, v))

/-- R9: `S[i] <- v`, in place. -/
def State.writeSlot (s : State) (i : Nat) (v : Word) : State := s.setStack (s.stack.set i v)

/-- R9: `remove(i)`. -/
def State.removeSlot (s : State) (i : Nat) : State := s.setStack (s.stack.eraseIdx i)

end Sys2Proof.Machine
end

