-- ==== Sys2Proof/Machine/Arith.lean ====
section
/-! DEFINITION. The arithmetic instructions Add, Dec and Inc (42_alu.md). -/

namespace Sys2Proof.Machine

/-- R130: remove the elements at two indices, the lower first and the higher one place down, and put a value on top. The
push cannot overflow here, "len(S) is 2 less than before", so no capacity check is made (R204; log 15). -/
def State.replacePair (s : State) (i j : Nat) (r : Word) : State :=
  let s' := (s.removeSlot (min i j)).removeSlot (max i j - 1)
  s'.setStack (s'.stack ++ [r])

/-- R130: add two stack elements, remove both, push the sum. Both offsets are resolved and both values captured before the
stack changes; the checks run in the order of R204. -/
def execAdd (a b : Word) (s : State) : Host.Outcome State Fault Refusal :=
  match s.operand a with
  | none => conclude (.raise .bounds) s
  | some (i, x) =>
    match s.operand b with
    | none => conclude (.raise .bounds) s
    | some (j, y) =>
      if i = j then conclude (.raise .operandAlias) s
      else
        match addChecked s.cfg.addWrap x y with
        | none => conclude (.raise .arithmetic) s
        | some r => conclude .fallthrough (s.replacePair i j r)

/-- R131: decrement a stack element in place. -/
def execDec (p : Word) (s : State) : Host.Outcome State Fault Refusal :=
  match s.operand p with
  | none => conclude (.raise .bounds) s
  | some (i, x) =>
    match decChecked x with
    | none => conclude (.raise .arithmetic) s
    | some r => conclude .fallthrough (s.writeSlot i r)

/-- R132: increment a stack element in place. -/
def execInc (p : Word) (s : State) : Host.Outcome State Fault Refusal :=
  match s.operand p with
  | none => conclude (.raise .bounds) s
  | some (i, x) =>
    match incChecked x with
    | none => conclude (.raise .arithmetic) s
    | some r => conclude .fallthrough (s.writeSlot i r)

end Sys2Proof.Machine
end

