-- ==== Sys2Proof/Machine/Control.lean ====
section
/-! DEFINITION. The control-transfer instructions Gt, Eq and Jmp (43_control.md). A target is never checked. -/

namespace Sys2Proof.Machine

/-- A branch that compares the elements at two offsets: taken to `t` where `test` holds, else fall through (R140, R141). -/
def branchOn (test : Word → Word → Bool) (a b t : Word) (s : State) : Host.Outcome State Fault Refusal :=
  match s.operand a with
  | none => conclude (.raise .bounds) s
  | some (_, x) =>
    match s.operand b with
    | none => conclude (.raise .bounds) s
    | some (_, y) => if test x y then conclude (.jump t) s else conclude .fallthrough s

/-- R140: branch if greater, unsigned. -/
def execGt (a b t : Word) (s : State) : Host.Outcome State Fault Refusal := branchOn isGreater a b t s

/-- R141: branch if equal. -/
def execEq (a b t : Word) (s : State) : Host.Outcome State Fault Refusal := branchOn isEqual a b t s

/-- R142: unconditional jump. -/
def execJmp (t : Word) (s : State) : Host.Outcome State Fault Refusal := conclude (.jump t) s

end Sys2Proof.Machine
end

