-- ==== Sys2Proof/Machine/InOut.lean ====
section
/-! DEFINITION. The input and output instructions Out, In, OutStr, InByte and OutByte (44_io.md). -/

namespace Sys2Proof.Machine

/-- R150: write a stack element as decimal text and a newline. -/
def execOut (p : Word) (s : State) : Host.Outcome State Fault Refusal :=
  match s.operand p with
  | none => conclude (.raise .bounds) s
  | some (_, v) => concludeWrite (decText v ++ [newline]) s

/-- R151, R156: the line is complete: parse it and push its value. -/
def concludeLine (s : State) : Host.Outcome State Fault Refusal :=
  match parseU64 s.cfg.inTrim s.lineBuf with
  | none => conclude (.raise .parse) s
  | some v => concludePush v (s.setLineBuf [])

/-- R151: the input ends inside a line: In parses the bytes or raises, by `IN_EOF_PARTIAL` (D9). -/
def concludePartialLine (s : State) : Host.Outcome State Fault Refusal :=
  match s.cfg.inEofPartial with
  | .parse => concludeLine s
  | .parseError => conclude (.raise .parse) s

/-- R151: read one line of decimal text and push its value: the listed bytes, then one `InRead()`. A line that this does not
complete is gone on with in the next turn, its bytes so far consumed: the port has not answered yet (R107, log 2), or it
answers an infinite sequence and In takes one byte of it a turn (R52, log 2). -/
def execInLine (s : State) : Host.Outcome State Fault Refusal :=
  match s.readLine with
  | (true, s') => concludeLine s'
  | (false, s') =>
    match s'.inRead with
    | (.byte b, s'') =>
      if b = newline then concludeLine s'' else conclude .wait (s''.setLineBuf (s''.lineBuf ++ [b]))
    | (.eof, s'') => if s''.lineBuf = [] then conclude (.haltClean .inputEof) s'' else concludePartialLine s''
    | (.ioerr, s'') => conclude (.raise .io) s''
    | (.waiting, s'') => conclude .wait s''

/-- R152: write a string literal and a newline. -/
def execOutStr (str : List Byte) (s : State) : Host.Outcome State Fault Refusal := concludeWrite (str ++ [newline]) s

/-- R153: read one raw byte and push it, zero-extended. -/
def execInByte (s : State) : Host.Outcome State Fault Refusal :=
  match s.inRead with
  | (.byte b, s') => concludePush (zeroExtend b) s'
  | (.eof, s') => conclude (.haltClean .inputEof) s'
  | (.ioerr, s') => conclude (.raise .io) s'
  | (.waiting, s') => conclude .wait s'

/-- R154: write a stack element as one raw byte; a value above 255 is an ArithmeticError, never truncated. -/
def execOutByte (p : Word) (s : State) : Host.Outcome State Fault Refusal :=
  match s.operand p with
  | none => conclude (.raise .bounds) s
  | some (_, v) =>
    match byteChecked v with
    | none => conclude (.raise .arithmetic) s
    | some b => concludeWrite [b] s

end Sys2Proof.Machine
end

