-- ==== Sys2Proof/Machine/Stack.lean ====
section
/-! DEFINITION. The stack instructions Push and Copy (41_stack.md). -/

namespace Sys2Proof.Machine

/-- R120: push an immediate. -/
def execPush (v : Word) (s : State) : Host.Outcome State Fault Refusal := concludePush v s

/-- R121: duplicate a stack element onto the top; the bounds check comes before the push. -/
def execCopy (p : Word) (s : State) : Host.Outcome State Fault Refusal :=
  match s.operand p with
  | none => conclude (.raise .bounds) s
  | some (_, v) => concludePush v s

end Sys2Proof.Machine
end

