-- ==== Sys2Proof/Machine/Dispatch.lean ====
section
/-! DEFINITION. One arm per instruction: the meaning it has (40_execution_cycle.md R105, exhaustive dispatch). -/

namespace Sys2Proof.Machine

def exec (i : Instr) (s : State) : Host.Outcome State Fault Refusal :=
  match i with
  | .push v => Sys2Proof.Machine.execPush v s
  | .out p => Sys2Proof.Machine.execOut p s
  | .inLine => Sys2Proof.Machine.execInLine s
  | .outStr str => Sys2Proof.Machine.execOutStr str s
  | .copy p => Sys2Proof.Machine.execCopy p s
  | .add a b => Sys2Proof.Machine.execAdd a b s
  | .gt a b t => Sys2Proof.Machine.execGt a b t s
  | .eq a b t => Sys2Proof.Machine.execEq a b t s
  | .jmp t => Sys2Proof.Machine.execJmp t s
  | .dec p => Sys2Proof.Machine.execDec p s
  | .inc p => Sys2Proof.Machine.execInc p s
  | .inByte => Sys2Proof.Machine.execInByte s
  | .outByte p => Sys2Proof.Machine.execOutByte p s

end Sys2Proof.Machine
end

