-- ==== Sys2Proof/Machine/Utf8.lean ====
section
/-! DEFINITION. UTF-8 validity of an OutStr payload, as RFC 3629 defines it (30_encoding.md R75: no overlong forms, no
surrogate code points, no code point above U+10FFFF). The byte ranges are those of that RFC's grammar, which R75 names
without writing them out (PRESUMED, log 16). -/

namespace Sys2Proof

/-- Where a scan of UTF-8 stands: between characters, or what the next byte of a character may be. -/
inductive Utf8State where
  /-- between two characters -/
  | start
  /-- one, two or three continuation bytes are due -/
  | tail1 | tail2 | tail3
  /-- the second byte after 0xE0, 0xED, 0xF0 or 0xF4, whose range is narrower -/
  | afterE0 | afterED | afterF0 | afterF4
  deriving DecidableEq, Repr

/-- The byte lies in `lo..hi`; if so the scan goes on in `st`. -/
def utf8Range (lo hi : Nat) (st : Utf8State) (b : Byte) : Option Utf8State :=
  if lo ≤ b.toNat ∧ b.toNat ≤ hi then some st else none

/-- The first byte of a character. 0xC0, 0xC1 (overlong) and 0xF5 and above (past U+10FFFF) begin none. -/
def utf8Lead (b : Byte) : Option Utf8State :=
  let n := b.toNat
  if n ≤ 0x7F then some .start
  else if n ≤ 0xC1 then none
  else if n ≤ 0xDF then some .tail1
  else if n = 0xE0 then some .afterE0
  else if n = 0xED then some .afterED
  else if n ≤ 0xEF then some .tail2
  else if n = 0xF0 then some .afterF0
  else if n ≤ 0xF3 then some .tail3
  else if n = 0xF4 then some .afterF4
  else none

/-- One byte of the scan; `none` where no valid text goes on so. -/
def utf8Next (st : Utf8State) (b : Byte) : Option Utf8State :=
  match st with
  | .start => utf8Lead b
  | .tail1 => utf8Range 0x80 0xBF .start b
  | .tail2 => utf8Range 0x80 0xBF .tail1 b
  | .tail3 => utf8Range 0x80 0xBF .tail2 b
  | .afterE0 => utf8Range 0xA0 0xBF .tail1 b
  | .afterED => utf8Range 0x80 0x9F .tail1 b
  | .afterF0 => utf8Range 0x90 0xBF .tail2 b
  | .afterF4 => utf8Range 0x80 0x8F .tail2 b

/-- Scan from `st` to the end of the bytes, which must fall between two characters. -/
def utf8Scan (st : Utf8State) (bs : List Byte) : Bool :=
  match bs with
  | [] => decide (st = .start)
  | b :: rest =>
    match utf8Next st b with
    | some st' => utf8Scan st' rest
    | none => false

/-- R75: `valid_utf8(s)`. -/
def validUtf8 (bs : List Byte) : Bool := utf8Scan .start bs

end Sys2Proof
end

