-- ==== Sys2Proof/Decode.lean ====
section
/-! DEFINITION. The loader's decoder (30_encoding.md R71 to R80), total on every byte sequence, and the encoder (R81). -/

namespace Sys2Proof

/-! ### Numeric fields (R74) -/

/-- R10, R74: the number that bytes spell, least significant byte first. -/
def leNat (bs : List Byte) : Nat :=
  match bs with
  | [] => 0
  | b :: rest => b.toNat + 256 * leNat rest

/-- R74: `n` bytes of a number, least significant byte first. -/
def leBytes (n v : Nat) : List Byte :=
  match n with
  | 0 => []
  | k + 1 => BitVec.ofNat 8 v :: leBytes k (v / 256)

/-- R10: `le64`, the u64 of eight bytes. -/
def le64 (bs : List Byte) : Word := BitVec.ofNat 64 (leNat bs)

/-- R74, R81: an operand as 8 little-endian bytes. -/
def wordBytes (w : Word) : List Byte := leBytes 8 w.toNat

/-- R74, R80: read one 8-byte field; `none` where fewer than 8 bytes are left. -/
def takeField (bs : List Byte) : Option (Word × List Byte) :=
  if bs.length < 8 then none else some (le64 (bs.take 8), bs.drop 8)

/-! ### One record (R71, R73, R75) -/

/-- What reading one record gives: the instruction and the bytes after it, or the sub-kind of the FormatError. -/
inductive RecordResult where
  | ok (i : Instr) (rest : List Byte)
  | bad (sub : FmtSub)
  deriving DecidableEq, Repr

/-- Format F1: one operand. -/
def readF1 (f : Word → Instr) (bs : List Byte) : RecordResult :=
  match takeField bs with
  | none => .bad .truncated
  | some (x, rest) => .ok (f x) rest

/-- Format F2: two operands, in the order of R73. -/
def readF2 (f : Word → Word → Instr) (bs : List Byte) : RecordResult :=
  match takeField bs with
  | none => .bad .truncated
  | some (x, rest) => readF1 (f x) rest

/-- Format F3: three operands, in the order of R73. -/
def readF3 (f : Word → Word → Word → Instr) (bs : List Byte) : RecordResult :=
  match takeField bs with
  | none => .bad .truncated
  | some (x, rest) => readF2 (f x) rest

/-- Format S: a length and that many bytes of valid UTF-8 (R75). -/
def readS (bs : List Byte) : RecordResult :=
  match takeField bs with
  | none => .bad .truncated
  | some (n, rest) =>
    if rest.length < n.toNat then .bad .truncated
    else if validUtf8 (rest.take n.toNat) then .ok (.outStr (rest.take n.toNat)) (rest.drop n.toNat)
    else .bad .invalidUtf8

/-- R72, R80: the payload of a record, by the format of its opcode. -/
def readPayload (op : Opcode) (bs : List Byte) : RecordResult :=
  match op with
  | .push => readF1 .push bs
  | .out => readF1 .out bs
  | .inLine => .ok .inLine bs
  | .outStr => readS bs
  | .copy => readF1 .copy bs
  | .add => readF2 .add bs
  | .gt => readF3 .gt bs
  | .eq => readF3 .eq bs
  | .jmp => readF1 .jmp bs
  | .dec => readF1 .dec bs
  | .inc => readF1 .inc bs
  | .inByte => .ok .inByte bs
  | .outByte => readF1 .outByte bs

/-- R80: one record at the front of the bytes. A tag outside the map is UNKNOWN_TAG (R78). -/
def decodeRecord (tm : TagMap) (bs : List Byte) : RecordResult :=
  match bs with
  | [] => .bad .truncated
  | t :: rest =>
    match tm.opcodeOf t with
    | none => .bad .unknownTag
    | some op => readPayload op rest

/-! ### A program image (R79, R80) -/

/-- What decoding an image gives: the program, or the FormatError and the byte offset of the failing record's tag. -/
inductive LoadResult where
  | loaded (prog : List Instr)
  | formatError (sub : FmtSub) (offset : Nat)
  deriving DecidableEq, Repr

/-- R80: the loop over the image, byte by byte. `skip` counts the bytes of the current record still to pass, `off` is the
offset of the first byte of `bs`, `acc` the instructions decoded so far. -/
def decodeFrom (tm : TagMap) (cap : Nat) (bs : List Byte) (skip off : Nat) (acc : List Instr) : LoadResult :=
  match bs, skip with
  | [], _ => .loaded acc
  | _ :: rest, k + 1 => decodeFrom tm cap rest k (off + 1) acc
  | b :: rest, 0 =>
    match decodeRecord tm (b :: rest) with
    | .bad sub => .formatError sub off
    | .ok i left =>
      if acc.length = cap then .formatError .programTooLarge off
      else decodeFrom tm cap rest (rest.length - left.length) (off + 1) (acc ++ [i])

/-- R80: `decode(image)`, under a tag map and `PROG_CAP`. -/
def decode (tm : TagMap) (cap : Nat) (image : List Byte) : LoadResult := decodeFrom tm cap image 0 0 []

/-! ### The encoder (R71, R81) -/

/-- The opcode of an instruction (R70). -/
def Instr.opcode (i : Instr) : Opcode :=
  match i with
  | .push _ => .push
  | .out _ => .out
  | .inLine => .inLine
  | .outStr _ => .outStr
  | .copy _ => .copy
  | .add _ _ => .add
  | .gt _ _ _ => .gt
  | .eq _ _ _ => .eq
  | .jmp _ => .jmp
  | .dec _ => .dec
  | .inc _ => .inc
  | .inByte => .inByte
  | .outByte _ => .outByte

/-- R81: the operands of an instruction as its record stores them, in the order of R73. -/
def Instr.payload (i : Instr) : List Byte :=
  match i with
  | .push v => wordBytes v
  | .out p => wordBytes p
  | .inLine => []
  | .outStr s => wordBytes (BitVec.ofNat 64 s.length) ++ s
  | .copy p => wordBytes p
  | .add a b => wordBytes a ++ wordBytes b
  | .gt a b t => wordBytes a ++ (wordBytes b ++ wordBytes t)
  | .eq a b t => wordBytes a ++ (wordBytes b ++ wordBytes t)
  | .jmp t => wordBytes t
  | .dec p => wordBytes p
  | .inc p => wordBytes p
  | .inByte => []
  | .outByte p => wordBytes p

/-- R81: the record of an instruction, its tag and then its operands. -/
def encode (tm : TagMap) (i : Instr) : List Byte := tm.tag i.opcode :: i.payload

/-- R81: "the concatenation of each instruction's record, in order". -/
def encodeProgram (tm : TagMap) (prog : List Instr) : List Byte :=
  match prog with
  | [] => []
  | i :: rest => encode tm i ++ encodeProgram tm rest

/-- R71, R77: the length in bytes of an instruction's record. -/
def Instr.recordLength (i : Instr) : Nat :=
  match i with
  | .push _ => 9
  | .out _ => 9
  | .inLine => 1
  | .outStr s => 9 + s.length
  | .copy _ => 9
  | .add _ _ => 17
  | .gt _ _ _ => 25
  | .eq _ _ _ => 25
  | .jmp _ => 9
  | .dec _ => 9
  | .inc _ => 9
  | .inByte => 1
  | .outByte _ => 9

/-! ### A word of the opcode table -/

/-- The bytes of a table word: `nbits` bits of `w` in whole bytes, bit 0 the lowest of the first byte (R71), then zeros up
to the longest fixed record (25 bytes, R71) and beyond (log 23). -/
def tableBytes (nbits w : Nat) : List Byte := leBytes ((nbits + 7) / 8) w ++ List.replicate 25 0

/-- The instruction that the decoder reads from a table word, under the default tag map. -/
def decodeTableWord (nbits w : Nat) : Option Instr :=
  match decodeRecord TagMap.default (tableBytes nbits w) with
  | .ok i _ => some i
  | .bad _ => none

end Sys2Proof
end

