-- ==== Sys2Proof/WellFormed.lean ====
section
/-! DEFINITION. Which instructions and which parameters are well formed. -/

namespace Sys2Proof

/-- R70, R75, R152: a string operand is valid UTF-8 of at most 2^64 - 1 bytes; every value of a numeric operand is legal
(R76, R78). -/
def Instr.wf (i : Instr) : Bool :=
  match i with
  | .push _ => true
  | .out _ => true
  | .inLine => true
  | .outStr s => decide (s.length < 2 ^ 64) && validUtf8 s
  | .copy _ => true
  | .add _ _ => true
  | .gt _ _ _ => true
  | .eq _ _ _ => true
  | .jmp _ => true
  | .dec _ => true
  | .inc _ => true
  | .inByte => true
  | .outByte _ => true

/-- R72: a tag map "must be injective (13 distinct byte values)". -/
def TagMap.wf (tm : TagMap) : Bool := decide (Opcode.all.map tm.tag).Nodup

/-- R7, R72: the tag map is injective and `PROG_CAP` is at most 2^64 - 1. -/
def Params.wf (c : Params) : Bool := c.tags.wf && decide (c.progCap ≤ 2 ^ 64 - 1)

end Sys2Proof
end

