-- ==== Sys2Proof/Machine/HostPort.lean ====
section
/-! DEFINITION. What the host's requests do (20_memory.md R55): reset (R230), load (R231), further answers of the two ports
(R50, R53), and the reading of STATUS and ERR_INFO. -/

namespace Sys2Proof.Machine

/-- R230: reset, in any state. A wait in progress is discarded, accepted output is not taken back, and the next
`InRead()` is the first of a new run, which the environment has not answered yet (log 7). The parameters, the output
port's coming replies, the host's coming requests and the counter of free values are no state of the engine and stay. -/
def State.hostReset (s : State) : State :=
  { s with
    prog := []
    stack := []
    pc := 0
    status := Status.idle
    errInfo := 0
    inPos := 0
    lineBuf := []
    outTaken := 0
    input := []
    inEnd := .stall }

/-- R30, R231: a successful load. P is the decoded program, S is empty, pc, ERR_INFO and the read position are 0, and
the engine runs. -/
def State.install (s : State) (prog : List Instr) : State :=
  { s with
    prog := prog
    stack := []
    pc := 0
    status := Status.running
    errInfo := 0
    inPos := 0 }

/-- R231: the host presents a program image. Outside IDLE it is ignored (D25). In IDLE the whole image is decoded (R80):
success starts the engine, a FormatError is an error entry with the offset of the failing record in ERR_INFO (R26, R200)
and leaves P as it is (log 21). Parameters that R7 or R72 rules out are a fault (log 11). -/
def State.hostLoad (s : State) (image : List Byte) : Host.Outcome State Fault Refusal :=
  if s.status.state = .idle then
    if s.cfg.wf then
      match decode s.cfg.tags s.cfg.progCap image with
      | .loaded prog => .next (s.install prog)
      | .formatError sub offset => .next (s.enterError .format sub (BitVec.ofNat 64 offset))
    else .fault .badParams
  else .next s

/-- R50, R52: further answers of the input port. Once the port has come to EOF or IOERR it answers the same for the rest
of the run, and an infinite sequence has no end, so later answers change nothing. -/
def State.answerInput (s : State) (bytes : List Byte) (fin : InEnd) : State :=
  match s.inEnd with
  | .stall => { s with input := s.input ++ bytes, inEnd := fin }
  | .eof => s
  | .ioerr => s
  | .endless _ => s

/-- R53: further moves of the environment at the output port. -/
def State.answerOutput (s : State) (replies : List OutReply) (fin : OutEnd) : State :=
  { s with outReplies := s.outReplies ++ replies, outEnd := fin }

/-- R55: the status read, STATUS and ERR_INFO; the engine does nothing. -/
def State.readStatus (s : State) : BitVec 32 × Word := (s.status.word, s.errInfo)

end Sys2Proof.Machine
end

