-- ==== Sys2Proof/Machine/Cycle.lean ====
section
/-! DEFINITION. The fetch-execute cycle (40_execution_cycle.md R100, R101, R105, R108) and the turns of engine and host. -/

namespace Sys2Proof.Machine

/-- R101: `P[pc]`; `none` where pc >= len(P). -/
def State.fetch (s : State) : Option Instr := s.prog[s.pc.toNat]?

/-- R100, R101, R105: the engine's turn. While RUNNING it fetches and executes one instruction, or halts cleanly past the
end of the program. In IDLE and in the terminal states it has no step and nothing changes (R108; log 1). -/
def engineTurn (s : State) : Host.Outcome State Fault Refusal :=
  match s.status.state with
  | .idle => .next s
  | .running =>
    match s.fetch with
    | none => .next (s.haltClean .pcOverrun)
    | some i => exec i s
  | .haltedClean => .next s
  | .haltedError => .next s

/-- R55: the turn of a scheduled event. -/
def hostTurn (e : HostEvent) (s : State) : Host.Outcome State Fault Refusal :=
  match e with
  | .engineTurn => engineTurn s
  | .reset => .next s.hostReset
  | .load image => s.hostLoad image
  | .answerInput bytes fin => .next (s.answerInput bytes fin)
  | .answerOutput replies fin => .next (s.answerOutput replies fin)

/-- An instruction put where the next turn fetches it, and the engine set running: at pc where pc is at most len(P), else
as the only instruction of P with pc = 0 (log 4, log 23). -/
def State.placeInstr (s : State) (i : Instr) : State :=
  let at' := if s.pc.toNat ≤ s.prog.length then s.pc else 0
  let prog := if s.pc.toNat ≤ s.prog.length then s.prog else []
  { s with
    prog := prog.take at'.toNat ++ i :: prog.drop (at'.toNat + 1)
    pc := at'
    status := Status.running
    errInfo := 0
    events := [] }

/-- Bytes that no instruction decodes from: presented as the whole image of the next turn's load, which reports them
(R78, R79; log 23). -/
def State.presentImage (s : State) (image : List Byte) : State :=
  { s with prog := [], status := Status.idle, errInfo := 0, events := [.load image] }

end Sys2Proof.Machine
end

