-- ==== Sys2Proof/Machine/Step.lean ====
section
/-! DEFINITION. One turn of the machine, and the placing of a table word where the next turn fetches it. -/

namespace Sys2Proof.Machine

/-- One turn: the host's next scheduled event if there is one, else the engine's turn (R55, R105; log 3). -/
def step (s : State) : Host.Outcome State Fault Refusal :=
  match s.events with
  | [] => engineTurn s
  | e :: rest => hostTurn e { s with events := rest }

/-- The instruction of a table word put where the next turn fetches it; it stands for the load that brings a program into
the machine (R231; log 4). -/
def State.withFetchWord (s : State) (nbits w : Nat) : State :=
  match decodeTableWord nbits w with
  | some i => s.placeInstr i
  | none => s.presentImage (tableBytes nbits w)

end Sys2Proof.Machine
end

