-- ==== Sys2Proof/Safety.lean ====
section
/-! DEFINITION. The terms claims are stated in: legal statuses, the state invariant, what an error entry fixes, and the
spec's own descriptions of values, written independently of the functions the machine runs. -/

namespace Sys2Proof

/-! ### STATUS -/

/-- R25: "Legal combinations" of the fields of STATUS. -/
def Status.legal (st : Status) : Bool :=
  match st.state with
  | .idle => decide (st.cause = .none) && decide (st.err = .none) && decide (st.fmtSub = .none)
  | .running => decide (st.cause = .none) && decide (st.err = .none) && decide (st.fmtSub = .none)
  | .haltedClean => decide (st.cause ≠ .none) && decide (st.err = .none) && decide (st.fmtSub = .none)
  | .haltedError =>
    decide (st.cause = .none) && decide (st.err ≠ .none) && decide (st.fmtSub ≠ .none ↔ st.err = .format)

/-! ### Text and encodings, as the spec describes them -/

/-- R156: "sum over digits of (byte - 0x30) * 10^position (position 0 the last byte)". -/
def decimalValue (line : List Byte) : Nat :=
  match line with
  | [] => 0
  | b :: rest => (b.toNat - 0x30) * 10 ^ rest.length + decimalValue rest

/-- R156: the byte is an ASCII digit. -/
abbrev IsDecimalDigit (b : Byte) : Prop := 0x30 ≤ b.toNat ∧ b.toNat ≤ 0x39

/-- R156: the byte is one of the ASCII whitespace bytes. -/
abbrev IsWhitespace (b : Byte) : Prop := b ∈ ([0x09, 0x0A, 0x0B, 0x0C, 0x0D, 0x20] : List Byte)

/-- R156: the line is valid and has the value `v`: digits only, at least one, at most 2^64 - 1, and where `IN_TRIM` is true
whitespace before and after them. -/
def ParsesTo (trim : Bool) (line : List Byte) (v : Word) : Prop :=
  ∃ pre digits post : List Byte,
    line = pre ++ digits ++ post ∧
    (trim = false → pre = [] ∧ post = []) ∧
    (∀ b ∈ pre, IsWhitespace b) ∧ (∀ b ∈ post, IsWhitespace b) ∧
    digits ≠ [] ∧ (∀ b ∈ digits, IsDecimalDigit b) ∧ decimalValue digits = v.toNat

/-- R75: a Unicode scalar value: a code point up to U+10FFFF that is no surrogate. -/
abbrev IsScalarValue (c : Nat) : Prop := c < 0xD800 ∨ (0xE000 ≤ c ∧ c ≤ 0x10FFFF)

/-- R75: the UTF-8 encoding of a code point, as RFC 3629 gives it: 1 to 4 bytes, the shortest that fits. -/
def utf8Bytes (c : Nat) : List Byte :=
  if c < 0x80 then [BitVec.ofNat 8 c]
  else if c < 0x800 then [BitVec.ofNat 8 (0xC0 + c / 64), BitVec.ofNat 8 (0x80 + c % 64)]
  else if c < 0x10000 then
    [BitVec.ofNat 8 (0xE0 + c / 4096), BitVec.ofNat 8 (0x80 + c / 64 % 64), BitVec.ofNat 8 (0x80 + c % 64)]
  else
    [BitVec.ofNat 8 (0xF0 + c / 262144), BitVec.ofNat 8 (0x80 + c / 4096 % 64), BitVec.ofNat 8 (0x80 + c / 64 % 64),
      BitVec.ofNat 8 (0x80 + c % 64)]

/-! ### Operands of instructions -/

/-- R70, R204: the offset operands of an instruction, in the order in which their bounds are checked. -/
def Instr.offsets (i : Instr) : List Word :=
  match i with
  | .push _ => []
  | .out p => [p]
  | .inLine => []
  | .outStr _ => []
  | .copy p => [p]
  | .add a b => [a, b]
  | .gt a b _ => [a, b]
  | .eq a b _ => [a, b]
  | .jmp _ => []
  | .dec p => [p]
  | .inc p => [p]
  | .inByte => []
  | .outByte p => [p]

/-- R13, R143: the absolute target of an instruction that may load the pc. -/
def Instr.target (i : Instr) : Option Word :=
  match i with
  | .push _ => none
  | .out _ => none
  | .inLine => none
  | .outStr _ => none
  | .copy _ => none
  | .add _ _ => none
  | .gt _ _ t => some t
  | .eq _ _ t => some t
  | .jmp t => some t
  | .dec _ => none
  | .inc _ => none
  | .inByte => none
  | .outByte _ => none

/-- R50: In and InByte, the only instructions that read the input port. -/
def Instr.readsInput (i : Instr) : Bool :=
  match i with
  | .inLine => true
  | .inByte => true
  | .push _ => false
  | .out _ => false
  | .outStr _ => false
  | .copy _ => false
  | .add _ _ => false
  | .gt _ _ _ => false
  | .eq _ _ _ => false
  | .jmp _ => false
  | .dec _ => false
  | .inc _ => false
  | .outByte _ => false

/-- R54: Out, OutStr and OutByte, the only instructions that write output. -/
def Instr.writesOutput (i : Instr) : Bool :=
  match i with
  | .out _ => true
  | .outStr _ => true
  | .outByte _ => true
  | .push _ => false
  | .inLine => false
  | .copy _ => false
  | .add _ _ => false
  | .gt _ _ _ => false
  | .eq _ _ _ => false
  | .jmp _ => false
  | .dec _ => false
  | .inc _ => false
  | .inByte => false

/-- R200, R204: which instruction may raise which error. -/
def Instr.mayRaise (i : Instr) : List Err :=
  match i with
  | .push _ => [.stackOverflow]
  | .out _ => [.bounds, .io]
  | .inLine => [.io, .parse, .stackOverflow]
  | .outStr _ => [.io]
  | .copy _ => [.bounds, .stackOverflow]
  | .add _ _ => [.bounds, .operandAlias, .arithmetic]
  | .gt _ _ _ => [.bounds]
  | .eq _ _ _ => [.bounds]
  | .jmp _ => []
  | .dec _ => [.bounds, .arithmetic]
  | .inc _ => [.bounds, .arithmetic]
  | .inByte => [.io, .stackOverflow]
  | .outByte _ => [.bounds, .arithmetic, .io]

namespace Machine

/-! ### The stack -/

/-- R42, R102: the element `k` places below the top, counted from the top. -/
def State.fromTop (s : State) (k : Nat) : Option Word := s.stack.reverse[k]?

/-- R102: the absolute index `length - 1 - k`. -/
def State.indexOf (s : State) (k : Word) : Nat := s.stack.length - 1 - k.toNat

/-- R130: the elements of a list at every index but two, in their order. -/
def dropPair (l : List Word) (i j : Nat) : List Word :=
  (l.zipIdx.filter (fun x => decide (x.2 ≠ i ∧ x.2 ≠ j))).map Prod.fst

/-- R23: `len(S) <= STACK_CAP`. -/
def stackFits (cap : Option Nat) (n : Nat) : Bool :=
  match cap with
  | none => true
  | some c => decide (n ≤ c)

/-- R104: a push finds the stack at its capacity. -/
abbrev State.full (s : State) : Prop := s.cfg.stackCap = some s.stack.length

/-! ### Error entry -/

/-- What an instruction's error entry fixes, and all it fixes (R201, R202, R26): STATUS, ERR_INFO = the pc of the
instruction, and what is no part of S, pc and the read position. `s` is the state with the output that the instruction
wrote before it raised. -/
structure ErrorEntry (s t : State) (e : Err) : Prop where
  status : t.status = Status.error e .none
  errInfo : t.errInfo = s.pc
  prog : t.prog = s.prog
  input : t.input = s.input
  inEnd : t.inEnd = s.inEnd
  output : t.output = s.output
  outReplies : t.outReplies = s.outReplies
  outEnd : t.outEnd = s.outEnd
  events : t.events = s.events
  cfg : t.cfg = s.cfg
  lineBuf : t.lineBuf = []
  outTaken : t.outTaken = 0

/-- The instruction raises `e` and its entry is as above. -/
def Raises (i : Instr) (s : State) (e : Err) : Prop := ∃ t, exec i s = .next t ∧ ErrorEntry s t e

/-! ### The output port (R53) -/

/-- The moves of an environment that accepts a write in pieces of the given sizes. -/
def acceptAll (ks : List Nat) : List OutReply := ks.map OutReply.accept

/-- The environment accepts the whole write, in pieces or at once, and answers `OK`; `left` are its replies to later
writes. -/
def PortOk (s : State) (left : List OutReply) : Prop :=
  ∃ ks, s.outReplies = acceptAll ks ++ .ok :: left ∨ (s.outReplies = acceptAll ks ∧ left = [] ∧ s.outEnd = .ok)

/-- The environment accepts up to `k` bytes and then answers `IOERR`. -/
def PortFails (s : State) (k : Nat) (left : List OutReply) : Prop :=
  ∃ ks, k = ks.sum ∧
    (s.outReplies = acceptAll ks ++ .ioerr :: left ∨ (s.outReplies = acceptAll ks ∧ left = [] ∧ s.outEnd = .ioerr))

/-- The environment accepts up to `k` bytes and has not answered. -/
def PortHolds (s : State) (k : Nat) : Prop :=
  ∃ ks, k = ks.sum ∧ s.outReplies = acceptAll ks ∧ s.outEnd = .stall

/-- R53, R54, R107, R203: what an instruction does whose whole effect is `OutWrite(bytes)`: all of the bytes and a fall
through on `OK`; some first bytes and IOError on `IOERR`; some first bytes and a wait while there is no answer. -/
def WritesThenFallsThrough (i : Instr) (bytes : List Byte) (s : State) : Prop :=
  let due := bytes.drop s.outTaken
  (∀ left, PortOk s left →
    exec i s = .next { s with output := s.output ++ due, outReplies := left, outTaken := 0, pc := s.pc + 1 }) ∧
  (∀ k left, PortFails s k left →
    ∃ t, exec i s = .next t ∧ ErrorEntry { s with output := s.output ++ due.take k, outReplies := left } t .io) ∧
  (∀ k, PortHolds s k →
    exec i s = .next { s with
      output := s.output ++ due.take k, outReplies := [], outTaken := s.outTaken + (due.take k).length })

/-- The bytes that an output instruction offers (R150, R152, R154), where its checks pass. -/
def pendingWrite (i : Instr) (s : State) : Option (List Byte) :=
  match i with
  | .out p => (s.fromTop p.toNat).map (fun v => decText v ++ [newline])
  | .outStr str => some (str ++ [newline])
  | .outByte p =>
    match s.fromTop p.toNat with
    | none => none
    | some v => if v.toNat ≤ 255 then some [v.setWidth 8] else none
  | .push _ => none
  | .inLine => none
  | .copy _ => none
  | .add _ _ => none
  | .gt _ _ _ => none
  | .eq _ _ _ => none
  | .jmp _ => none
  | .dec _ => none
  | .inc _ => none
  | .inByte => none

/-! ### The input port (R50 to R52) -/

/-- R52: the byte `b_k` of the run's input sequence; `none` from where its terminal stands. -/
def State.inByteAt (s : State) (k : Nat) : Option Byte :=
  match s.inEnd with
  | .endless x => some (if h : k < s.input.length then s.input[k] else x.byte (k - s.input.length))
  | .eof => s.input[k]?
  | .ioerr => s.input[k]?
  | .stall => s.input[k]?

/-- The listed input bytes that have not been consumed yet. -/
def State.unread (s : State) : List Byte := s.input.drop s.inPos

/-- R151: what In does once its line is complete; `s` is the state before it, `pos` the read position after the line. -/
def LineEnds (s : State) (line : List Byte) (pos : Nat) : Prop :=
  (∀ v, ParsesTo s.cfg.inTrim line v → ¬ s.full →
    exec .inLine s = .next { s with inPos := pos, lineBuf := [], stack := s.stack ++ [v], pc := s.pc + 1 }) ∧
  (∀ v, ParsesTo s.cfg.inTrim line v → s.full → Raises .inLine s .stackOverflow) ∧
  ((∀ v, ¬ ParsesTo s.cfg.inTrim line v) → Raises .inLine s .parse)

/-- In waits: no 0x0A is listed and the port has not answered (R107, R151). -/
abbrev lineWaits (s : State) : Prop := newline ∉ s.unread ∧ s.inEnd = .stall

/-- InByte waits: no byte is there and the port has not answered (R107, R153). -/
abbrev byteWaits (s : State) : Prop := s.unread = [] ∧ s.inEnd = .stall

/-- In takes the byte `b` of an infinite sequence, which does not end its line, and goes on in the next turn (R52, R151). -/
abbrev lineGoesOn (s : State) (b : Byte) : Prop :=
  newline ∉ s.unread ∧ s.inByteAt (s.inPos + s.unread.length) = some b ∧ b ≠ newline

/-- The instruction would wait for the input port (R107). -/
abbrev inputWaits (i : Instr) (s : State) : Prop := (i = .inLine ∧ lineWaits s) ∨ (i = .inByte ∧ byteWaits s)

/-- The instruction would not complete its read in this turn (R52, R107). -/
abbrev readGoesOn (i : Instr) (s : State) : Prop := inputWaits i s ∨ (i = .inLine ∧ ∃ b, lineGoesOn s b)

/-! ### What instructions do to S (R23) -/

/-- R23: the column "length change" and "writes S" of the table, for an instruction that completes: `after` is what it
may leave of `before`. -/
def StackEffect (i : Instr) (before after : List Word) : Prop :=
  match i with
  | .push v => after = before ++ [v]
  | .inLine => ∃ v, after = before ++ [v]
  | .inByte => ∃ v : Word, v.toNat ≤ 255 ∧ after = before ++ [v]
  | .copy p => ∃ v, before.reverse[p.toNat]? = some v ∧ after = before ++ [v]
  | .add a b =>
    ∃ r, after = dropPair before (before.length - 1 - a.toNat) (before.length - 1 - b.toNat) ++ [r] ∧
      after.length + 1 = before.length
  | .dec p => ∃ v, after = before.set (before.length - 1 - p.toNat) v
  | .inc p => ∃ v, after = before.set (before.length - 1 - p.toNat) v
  | .out _ => after = before
  | .outStr _ => after = before
  | .gt _ _ _ => after = before
  | .eq _ _ _ => after = before
  | .jmp _ => after = before
  | .outByte _ => after = before

/-! ### The invariant -/

/-- What holds of every state the engine reaches, and is kept by every step. -/
structure State.Inv (s : State) : Prop where
  /-- R7, R72: the parameters are ones the spec allows -/
  params : s.cfg.wf = true
  /-- R25: the fields of STATUS are one of the legal combinations -/
  status : s.status.legal = true
  /-- R26: ERR_INFO "is 0 whenever STATE is not HALTED_ERROR" -/
  errInfo : s.status.state ≠ .haltedError → s.errInfo = 0
  /-- R23: `len(S) <= STACK_CAP` -/
  stack : stackFits s.cfg.stackCap s.stack.length = true
  /-- R22: `len(P) <= PROG_CAP` -/
  progLength : s.prog.length ≤ s.cfg.progCap
  /-- R101: "P holds only decoded, well-formed instructions" -/
  progWf : ∀ i ∈ s.prog, i.wf = true
  /-- R30: what IDLE means for P, S, pc and the read position -/
  idle : s.status.state = .idle → s.prog = [] ∧ s.stack = [] ∧ s.pc = 0 ∧ s.inPos = 0
  /-- R27, R51: no more bytes are consumed than were answered -/
  inPos : s.status.state ≠ .haltedError → ∀ k < s.inPos, (s.inByteAt k).isSome
  /-- R107, R151: a line in progress belongs to the In at pc, holds no terminator, and is the last bytes consumed -/
  lineBuf : s.lineBuf ≠ [] →
    s.status.state = .running ∧ s.fetch = some .inLine ∧ newline ∉ s.lineBuf ∧
      ∃ from', from' + s.lineBuf.length = s.inPos ∧ ∀ j < s.lineBuf.length, s.lineBuf[j]? = s.inByteAt (from' + j)
  /-- R53, R107: a write in progress is that of the output instruction at pc, and what was accepted of it ends the output -/
  outTaken : s.outTaken ≠ 0 →
    s.status.state = .running ∧ ∃ i bytes, s.fetch = some i ∧ pendingWrite i s = some bytes ∧
      s.outTaken ≤ bytes.length ∧ bytes.take s.outTaken <:+ s.output

/-- The turn is the engine's and the engine runs (R55, R105). -/
abbrev State.engineRuns (s : State) : Prop := s.events = [] ∧ s.status.state = .running

/-- R140, R142: a target at or past the end of P is legal, and halts cleanly at the fetch that follows (R101). -/
abbrev HaltsAtTarget (t : Word) (s : State) : Prop :=
  s.engineRuns → s.prog.length ≤ t.toNat →
    step { s with pc := t } = .next { s with pc := t, status := Status.clean .pcOverrun }

/-- No reset is scheduled (R108, R230). -/
abbrev State.noReset (s : State) : Prop := HostEvent.reset ∉ s.events

end Machine

end Sys2Proof
end

