-- ==== Sys2Proof/Certificates/Slice0/Obligations.lean ====
section
/-! DEFINITION. The statements for the provers, from the numbered rules of spec/: each is `def Obligations.<Name> : Prop`. -/

open Sys2Proof Sys2Proof.Machine

/-! ### The image: records, loader, encoder -/

/-- R82: decoding what was encoded gives it back, instruction by instruction and for whole programs, and every image that
decodes is the encoding of its program. -/
def Obligations.RoundTripOfInstructionsProgramsImages : Prop :=
  ∀ (tm : TagMap) (cap : Nat), tm.wf = true →
    (∀ i : Instr, i.wf = true → 1 ≤ cap → decode tm cap (encodeProgram tm [i]) = .loaded [i]) ∧
    (∀ prog : List Instr, (∀ i ∈ prog, i.wf = true) → prog.length ≤ cap →
      decode tm cap (encodeProgram tm prog) = .loaded prog) ∧
    (∀ (image : List Byte) (prog : List Instr), decode tm cap image = .loaded prog → encodeProgram tm prog = image)

/-- R77, R80, R81: a record is read whole, and nothing after it, whatever bytes follow. -/
def Obligations.RecordDecodesInFrontOfAnyBytes : Prop :=
  ∀ (tm : TagMap) (i : Instr) (rest : List Byte), tm.wf = true → i.wf = true →
    decodeRecord tm (encode tm i ++ rest) = .ok i rest

/-- R71: the length of each record, and where its tag and operands stand when it is read as one little-endian number. The
order of the operand fields is the spec's own decision D2. -/
def Obligations.RecordLayoutByFormat : Prop :=
  ∀ tm : TagMap,
    encode tm .inLine = [tm.inLine] ∧ encode tm .inByte = [tm.inByte] ∧
    (∀ x : Word,
      leNat (encode tm (.push x)) = tm.push.toNat + 2 ^ 8 * x.toNat ∧
      leNat (encode tm (.out x)) = tm.out.toNat + 2 ^ 8 * x.toNat ∧
      leNat (encode tm (.copy x)) = tm.copy.toNat + 2 ^ 8 * x.toNat ∧
      leNat (encode tm (.jmp x)) = tm.jmp.toNat + 2 ^ 8 * x.toNat ∧
      leNat (encode tm (.dec x)) = tm.dec.toNat + 2 ^ 8 * x.toNat ∧
      leNat (encode tm (.inc x)) = tm.inc.toNat + 2 ^ 8 * x.toNat ∧
      leNat (encode tm (.outByte x)) = tm.outByte.toNat + 2 ^ 8 * x.toNat) ∧
    (∀ a b : Word, leNat (encode tm (.add a b)) = tm.add.toNat + 2 ^ 8 * a.toNat + 2 ^ 72 * b.toNat) ∧
    (∀ a b t : Word,
      leNat (encode tm (.gt a b t)) = tm.gt.toNat + 2 ^ 8 * a.toNat + 2 ^ 72 * b.toNat + 2 ^ 136 * t.toNat ∧
      leNat (encode tm (.eq a b t)) = tm.eq.toNat + 2 ^ 8 * a.toNat + 2 ^ 72 * b.toNat + 2 ^ 136 * t.toNat) ∧
    (∀ s : List Byte, s.length < 2 ^ 64 →
      leNat ((encode tm (.outStr s)).take 9) = tm.outStr.toNat + 2 ^ 8 * s.length ∧
      (encode tm (.outStr s)).drop 9 = s) ∧
    (∀ i : Instr, (encode tm i).length = i.recordLength)

/-- R74: a field is the sum of its bytes times powers of 256, and every u64 is the value of exactly its own field. -/
def Obligations.FieldValueIsLittleEndianSum : Prop :=
  (∀ bs : List Byte, bs.length = 8 →
    (le64 bs).toNat = ((List.range 8).map (fun j => ((bs[j]?).getD 0).toNat * 256 ^ j)).sum ∧
    wordBytes (le64 bs) = bs) ∧
  (∀ w : Word, (wordBytes w).length = 8 ∧ le64 (wordBytes w) = w)

/-- R78: a tag byte outside the map stops the whole load wherever it stands, at its own offset; every operand bit pattern
of a known tag is legal (that no operand is checked at load is the spec's own decision D26). -/
def Obligations.UnknownTagStopsTheLoad : Prop :=
  (∀ (tm : TagMap) (cap : Nat) (prog : List Instr) (t : Byte) (rest : List Byte),
    tm.wf = true → (∀ i ∈ prog, i.wf = true) → prog.length ≤ cap → (∀ op, tm.tag op ≠ t) →
    decode tm cap (encodeProgram tm prog ++ t :: rest) = .formatError .unknownTag (encodeProgram tm prog).length) ∧
  (∀ (tm : TagMap) (op : Opcode) (rest : List Byte), tm.wf = true → op ≠ .outStr → 24 ≤ rest.length →
    ∃ i left, decodeRecord tm (tm.tag op :: rest) = .ok i left ∧ i.opcode = op ∧ rest = i.payload ++ left)

/-- R79: an empty image is the empty program, an image that ends inside a record is TRUNCATED at that record, and only an
image that ends at a record boundary is a program. The kind TRUNCATED is the spec's own decision D12. -/
def Obligations.ImageEndsOnlyAtARecordBoundary : Prop :=
  ∀ (tm : TagMap) (cap : Nat), tm.wf = true →
    decode tm cap [] = .loaded [] ∧
    (∀ (prog : List Instr) (i : Instr) (k : Nat), (∀ j ∈ prog, j.wf = true) → i.wf = true → prog.length ≤ cap →
      0 < k → k < (encode tm i).length →
      decode tm cap (encodeProgram tm prog ++ (encode tm i).take k) =
        .formatError .truncated (encodeProgram tm prog).length) ∧
    (∀ (image : List Byte) (prog : List Instr), decode tm cap image = .loaded prog → image = encodeProgram tm prog)

/-- R80: a record past `PROG_CAP` is PROGRAM_TOO_LARGE, at its own offset (the spec's own decision D5). -/
def Obligations.RecordPastProgCapIsTooLarge : Prop :=
  ∀ (tm : TagMap) (prog : List Instr) (i : Instr) (rest : List Byte),
    tm.wf = true → (∀ j ∈ prog, j.wf = true) → i.wf = true →
    decode tm prog.length (encodeProgram tm prog ++ (encode tm i ++ rest)) =
      .formatError .programTooLarge (encodeProgram tm prog).length

/-- R75, R80: a string payload that is not valid UTF-8 is INVALID_UTF8, at its record's offset (the spec's own decision D13;
validity is RFC 3629's, log 16). -/
def Obligations.InvalidUtf8StopsTheLoad : Prop :=
  ∀ (tm : TagMap) (cap : Nat) (prog : List Instr) (s rest : List Byte),
    tm.wf = true → (∀ j ∈ prog, j.wf = true) → prog.length ≤ cap → s.length < 2 ^ 64 → validUtf8 s = false →
    decode tm cap (encodeProgram tm prog ++ (encode tm (.outStr s) ++ rest)) =
      .formatError .invalidUtf8 (encodeProgram tm prog).length

/-- R75: the bytes the model takes for valid UTF-8 are exactly the concatenations of the encodings of Unicode scalar
values. The encoding is RFC 3629's, which the spec names and does not write out (log 16): the model's reading. -/
def Obligations.ValidUtf8IsScalarValueEncodings : Prop :=
  ∀ bs : List Byte, validUtf8 bs = true ↔ ∃ cs : List Nat, (∀ c ∈ cs, IsScalarValue c) ∧ bs = cs.flatMap utf8Bytes

/-- R72, R84: a few words of the default map decode to the instructions they stand for, and a reserved tag to none. The
tag values are the spec's own decision D1. -/
def Obligations.SampleWordsDecode : Prop :=
  decodeTableWord 72 0x0500 = some (.push 5) ∧
  decodeTableWord 8 0x02 = some .inLine ∧
  decodeTableWord 136 0x0105 = some (.add 1 0) ∧
  decodeTableWord 200 0x090000000000000003000000000000000207 = some (.eq 2 3 9) ∧
  decodeTableWord 88 0x6968000000000000000203 = some (.outStr [0x68, 0x69]) ∧
  decodeTableWord 8 0x0D = none

/-! ### Text -/

/-- R155: the decimal text of a value: 1 to 20 ASCII digits, no leading zero but in 0 itself, and its value is `v`.
The canonical form is the spec's own decision D10. -/
def Obligations.DecimalTextIsCanonical : Prop :=
  ∀ v : Word,
    1 ≤ (decText v).length ∧ (decText v).length ≤ 20 ∧ (∀ b ∈ decText v, IsDecimalDigit b) ∧
    decimalValue (decText v) = v.toNat ∧ ((decText v).head? = some 0x30 → decText v = [0x30] ∧ v = 0)

/-- R156: a line parses to `v` exactly when it is, after trimming where `IN_TRIM` is true, one or more digits of value
`v`. The grammar is the spec's own decision D9. -/
def Obligations.LineParsesExactlyWhenValid : Prop :=
  ∀ (trim : Bool) (line : List Byte) (v : Word), parseU64 trim line = some v ↔ ParsesTo trim line v

/-- R150, R151, R155, R156: the text Out writes, leading zeros put before it or not, is read back by In as the same
value (the spec's own decisions D9, D10). -/
def Obligations.WrittenTextReadsBack : Prop :=
  ∀ (trim : Bool) (v : Word) (zeros : Nat), parseU64 trim (List.replicate zeros 0x30 ++ decText v) = some v

/-! ### The cycle -/

/-- R101, R105: while RUNNING, the engine's turn with pc < len(P) is `exec` of the instruction at pc, on the state as it
is, whether the turn is the engine's by an empty schedule or by its next entry (the schedule is the model's, log 3). -/
def Obligations.StepRunsFetchedInstruction : Prop :=
  ∀ (s : State) (i : Instr), s.status.state = .running → s.prog[s.pc.toNat]? = some i →
    (s.events = [] → step s = exec i s) ∧
    (∀ rest, s.events = .engineTurn :: rest → step s = exec i { s with events := rest })

/-- R231, R232: bytes that decode to an instruction run as it. An image presented in IDLE whose first record is that of a
well-formed instruction `i` and whose other records decode is loaded in one turn, and the next engine turn is `exec` of
`i` with S empty and pc 0. That a program comes to run by a scheduled load is the model's form (log 3, log 4). -/
def Obligations.LoadedBytesRunAsTheirInstruction : Prop :=
  ∀ (s : State) (i : Instr) (more : List Instr) (rest : List HostEvent),
    s.cfg.wf = true → s.status.state = .idle → i.wf = true → (∀ j ∈ more, j.wf = true) →
    more.length + 1 ≤ s.cfg.progCap →
    s.events = .load (encode s.cfg.tags i ++ encodeProgram s.cfg.tags more) :: .engineTurn :: rest →
    ∃ t, step s = .next t ∧ t.prog = i :: more ∧ t.stack = [] ∧ t.pc = 0 ∧ step t = exec i { t with events := rest }

/-- R101, R205: fetch with pc < len(P) is P[pc]; with pc >= len(P) the turn halts cleanly with PC_OVERRUN, and nothing else
changes, whether the turn is the engine's by an empty schedule or by its next entry (the schedule is the model's, log 3). -/
def Obligations.PcPastTheEndHaltsCleanly : Prop :=
  (∀ (s : State) (h : s.pc.toNat < s.prog.length), s.fetch = some s.prog[s.pc.toNat]) ∧
  (∀ s : State, s.engineRuns → s.prog.length ≤ s.pc.toNat →
    step s = .next { s with status := Status.clean .pcOverrun }) ∧
  (∀ (s : State) (rest : List HostEvent), s.status.state = .running → s.events = .engineTurn :: rest →
    s.prog.length ≤ s.pc.toNat → step s = .next { s with events := rest, status := Status.clean .pcOverrun })

/-- R108: both halted states are terminal: over any number of turns without a reset, the engine's state does not change. R108
says that the engine has no step there: that a turn still ANSWERS a next state is the model's choice (log 1), and the turns
are the model's schedule (log 3). S, pc and the read position, which R202 leaves without meaning after an error, keep the
values they have by R108's "the state does not change until reset", whatever they are (log 12). -/
def Obligations.HaltedStateStaysUntilReset : Prop :=
  ∀ (k : Nat) (s : State), (s.status.state = .haltedClean ∨ s.status.state = .haltedError) → s.noReset →
    ∃ t, Host.Core.run core k s = .next t ∧
      t.prog = s.prog ∧ t.stack = s.stack ∧ t.pc = s.pc ∧ t.status = s.status ∧ t.errInfo = s.errInfo ∧
      t.inPos = s.inPos ∧ t.output = s.output

/-- R30, R230: a reset request, in any state, waiting included, gives the reset values, which are those of the state right
after reset; accepted output stays. Reset in any state and pc 0 are the spec's own decisions D18, D19; the transfer in
progress that it ends is the model's state (log 2), the schedule its form (log 3). -/
def Obligations.ResetFromAnyState : Prop :=
  (∀ (s : State) (rest : List HostEvent), s.events = .reset :: rest →
    ∃ t, step s = .next t ∧
      t.prog = [] ∧ t.stack = [] ∧ t.pc = 0 ∧ t.status.state = .idle ∧ t.status.word = 0 ∧ t.errInfo = 0 ∧
      t.inPos = 0 ∧ t.lineBuf = [] ∧ t.outTaken = 0 ∧ t.output = s.output ∧ t.cfg = s.cfg ∧ t.events = rest) ∧
  State.reset.prog = [] ∧ State.reset.stack = [] ∧ State.reset.pc = 0 ∧ State.reset.status.state = .idle ∧
  State.reset.status.word = 0 ∧ State.reset.errInfo = 0 ∧ State.reset.inPos = 0

/-- R231: a load in IDLE decodes the whole image: it starts the engine on the program, or enters HALTED_ERROR with FORMAT,
the sub-kind and the failing record's offset; outside IDLE it is ignored (the spec's own decisions D15, D25).
ERR_INFO takes the offset modulo 2^64, the model's choice (log 19); that a load writes S, pc, ERR_INFO and the read position in
every IDLE state is R30's table, as the model reads it (log 22); a load as a scheduled turn is the model's form (log 3). -/
def Obligations.LoadStartsOrReportsOrIsIgnored : Prop :=
  ∀ (s : State) (image : List Byte) (rest : List HostEvent), s.events = .load image :: rest →
    (s.status.state ≠ .idle → step s = .next { s with events := rest }) ∧
    (s.status.state = .idle → s.cfg.wf = true →
      (∀ prog, decode s.cfg.tags s.cfg.progCap image = .loaded prog →
        step s = .next { s with
          prog := prog, stack := [], pc := 0, status := Status.running, errInfo := 0, inPos := 0, events := rest }) ∧
      (∀ sub off, decode s.cfg.tags s.cfg.progCap image = .formatError sub off →
        ∃ t, step s = .next t ∧ t.status = Status.error .format sub ∧ t.errInfo = BitVec.ofNat 64 off ∧
          t.output = s.output ∧ t.events = rest))

/-- R100: how STATE may change in a turn: the reset request gives IDLE, a load in IDLE gives RUNNING or HALTED_ERROR, the
engine's turn leaves RUNNING only for a halted state, and nothing else changes it. The states' names are the spec's own decision D15;
the schedule, the turn where the engine has no step and the turn of a wait are the model's (log 3, log 1, log 2). -/
def Obligations.StateTransitionsFollowTheTable : Prop :=
  ∀ s t : State, step s = .next t →
    match s.events with
    | .reset :: _ => t.status.state = .idle
    | .load _ :: _ =>
      if s.status.state = .idle then t.status.state = .running ∨ t.status.state = .haltedError
      else t.status.state = s.status.state
    | .answerInput _ _ :: _ => t.status.state = s.status.state
    | .answerOutput _ _ :: _ => t.status.state = s.status.state
    | .engineTurn :: _ =>
      if s.status.state = .running then t.status.state ≠ .idle else t.status.state = s.status.state
    | [] => if s.status.state = .running then t.status.state ≠ .idle else t.status.state = s.status.state

/-- R30: the invariant holds right after reset. What the ports and the schedule hold there is the model's choice (log 3, log 6,
log 9, log 24). -/
def Obligations.InvariantHoldsAtReset : Prop := State.reset.Inv

/-- R22 to R27, R30, R107: every turn keeps the invariant: legal STATUS, ERR_INFO 0 outside HALTED_ERROR, S and P within
their capacities, P well formed, no byte consumed that the input sequence has not, and a port transfer in progress only where an
instruction waits for it. The two last are over state of the model's own (log 2); the bound on the stack after an error
rests on log 13. -/
def Obligations.StepKeepsTheInvariant : Prop :=
  ∀ s t : State, s.Inv → step s = .next t → t.Inv

/-- R22, R41, R58: P is written by a load in IDLE and by reset, and by nothing else. -/
def Obligations.ProgramIsNeverMutatedByTheEngine : Prop :=
  ∀ s t : State, step s = .next t → t.prog ≠ s.prog →
    (∃ rest, s.events = .reset :: rest) ∨ (s.status.state = .idle ∧ ∃ image rest, s.events = .load image :: rest)

/-- R46, R54, R7: in every turn, accepted output is only added to, and the parameters stay (that both stand in State is the
model's form, log 5, log 10). -/
def Obligations.OutputOnlyGrowsAndParametersStay : Prop :=
  ∀ s t : State, step s = .next t → s.output <+: t.output ∧ t.cfg = s.cfg

/-- Every turn answers a next state, but for a load under parameters that R7 or R72 rules out (the model's choice, log 11):
no instruction is refused and none faults. Where the spec gives the engine no step, in IDLE, after a halt (R108) and during a
wait (R107, "stuck" in 93_implementation_defined.md section 3), that a turn answers a next state is the model's choice (log 1,
log 2). -/
def Obligations.OnlyBadParametersStopAStep : Prop :=
  ∀ s : State,
    (∃ t, step s = .next t) ∨
    (step s = .fault .badParams ∧ s.cfg.wf = false ∧ s.status.state = .idle ∧
      ∃ image rest, s.events = .load image :: rest)

/-- R24, R105, R143: an instruction that raises no error leaves pc at pc + 1 or at its own absolute target, or where it is
when it waits or halts cleanly for want of input; and pc + 1 never wraps where the instruction was fetched. That pc stays
at a clean end of input is the spec's own decision D27; a turn that does not complete its read or write is
the model's form (log 2). -/
def Obligations.PcAdvancesOrTakesItsTarget : Prop :=
  (∀ (i : Instr) (s t : State), s.status.state = .running → exec i s = .next t → t.status.state = .running →
    t.pc = s.pc + 1 ∨ i.target = some t.pc ∨
      (t.pc = s.pc ∧ (readGoesOn i s ∨ (i.writesOutput = true ∧ ∃ k, PortHolds s k)))) ∧
  (∀ (i : Instr) (s t : State), s.status.state = .running → exec i s = .next t → t.status.state = .haltedClean →
    t.pc = s.pc ∧ t.stack = s.stack ∧ t.status = Status.clean .inputEof ∧ i.readsInput = true) ∧
  (∀ (i : Instr) (s : State), s.Inv → s.fetch = some i → (s.pc + 1).toNat = s.pc.toNat + 1)

/-! ### Errors -/

/-- R26, R200, R201, R204: an instruction that ends in HALTED_ERROR raised one of its own errors, with FMT_SUB 0, no halt
cause, and its own pc in ERR_INFO (the spec's own decisions D15, D16). -/
def Obligations.ErrorsRecordKindAndRaisingPc : Prop :=
  ∀ (i : Instr) (s t : State), s.status.state = .running → exec i s = .next t → t.status.state = .haltedError →
    t.errInfo = s.pc ∧ ∃ e ∈ i.mayRaise, t.status = Status.error e .none

/-- R203: what was accepted before an error stays; an output instruction's IOError adds some first bytes of its write, and
every other error adds none (the spec's own decisions D17, D22). What a held
write has left is the model's state (log 2); that a failing write may have been accepted whole is log 8. -/
def Obligations.OutputAroundAnError : Prop :=
  ∀ (i : Instr) (s t : State), s.status.state = .running → exec i s = .next t → t.status.state = .haltedError →
    (t.output = s.output ∨
      (t.status.err = .io ∧ ∃ bytes q, pendingWrite i s = some bytes ∧ q <+: bytes.drop s.outTaken ∧
        t.output = s.output ++ q))

/-- R102: `resolve(k)` is `len(S) - 1 - k` for k < len(S) and BoundsError otherwise, without wrap; an instruction raises
BoundsError exactly when one of its offsets names no element. -/
def Obligations.OffsetsResolveOrRaiseBounds : Prop :=
  (∀ (s : State) (k : Word), k.toNat < s.stack.length → s.resolve k = some (s.stack.length - 1 - k.toNat)) ∧
  (∀ (s : State) (k : Word), s.stack.length ≤ k.toNat → s.resolve k = none) ∧
  (∀ (i : Instr) (s : State) (k : Word), k ∈ i.offsets → s.stack.length ≤ k.toNat → Raises i s .bounds) ∧
  (∀ (i : Instr) (s : State), s.status.state = .running → Raises i s .bounds →
    ∃ k ∈ i.offsets, s.stack.length ≤ k.toNat)

/-- R103, R236: after a push, offset k + 1 names what offset k named before, and offset 0 the value pushed. -/
def Obligations.OffsetsShiftByOneAfterPush : Prop :=
  ∀ (s t : State) (v : Word), s.push v = some t →
    t.operand 0 = some (s.stack.length, v) ∧
    (∀ k : Word, k.toNat + 1 < 2 ^ 64 → t.operand (k + 1) = s.operand k)

/-- R104: under the default unbounded `STACK_CAP` no instruction raises StackOverflowError, and under a finite one only an
instruction that pushes onto a stack at the capacity does (the spec's own decision D4). -/
def Obligations.OverflowOnlyAtCapacity : Prop :=
  ∀ (i : Instr) (s : State), s.status.state = .running → Raises i s .stackOverflow → s.cfg.stackCap = some s.stack.length

/-! ### Stack and arithmetic instructions -/

/-- R120: Push. The error at capacity is the spec's own decision D4, the tag D1. -/
def Obligations.PushRule : Prop :=
  ∀ (v : Word) (s : State),
    encode TagMap.default (.push v) = 0x00 :: wordBytes v ∧
    (¬ s.full → exec (.push v) s = .next { s with stack := s.stack ++ [v], pc := s.pc + 1 }) ∧
    (s.full → Raises (.push v) s .stackOverflow)

/-- R121: Copy, its checks in their order; the element copied from is where it was, one offset further down. The
error at capacity and the order of the checks are the spec's own decisions D4, D16, the tag D1. -/
def Obligations.CopyRule : Prop :=
  ∀ (p : Word) (s : State),
    encode TagMap.default (.copy p) = 0x04 :: wordBytes p ∧
    (s.fromTop p.toNat = none → Raises (.copy p) s .bounds) ∧
    (∀ v, s.fromTop p.toNat = some v →
      (s.full → Raises (.copy p) s .stackOverflow) ∧
      (¬ s.full → ∃ t, exec (.copy p) s = .next t ∧ t = { s with stack := s.stack ++ [v], pc := s.pc + 1 } ∧
        t.fromTop 0 = some v ∧ t.fromTop (p.toNat + 1) = some v))

/-- R130: Add, its checks in their order; the sum is exact or wraps by `ADD_WRAP`, both operands leave the stack, the
others keep their order, and the sum is the new top. The error on overflow and `ADD_WRAP`, the error on a = b, the order of
the checks, the field order and the tag are the spec's own decisions D7, D8, D16, D2, D1. -/
def Obligations.AddRule : Prop :=
  ∀ (a b : Word) (s : State),
    encode TagMap.default (.add a b) = 0x05 :: (wordBytes a ++ wordBytes b) ∧
    (s.fromTop a.toNat = none → Raises (.add a b) s .bounds) ∧
    (s.fromTop b.toNat = none → Raises (.add a b) s .bounds) ∧
    (∀ x y, s.fromTop a.toNat = some x → s.fromTop b.toNat = some y →
      (a = b → Raises (.add a b) s .operandAlias) ∧
      (a ≠ b → 2 ^ 64 ≤ x.toNat + y.toNat → s.cfg.addWrap = false → Raises (.add a b) s .arithmetic) ∧
      (a ≠ b → (x.toNat + y.toNat < 2 ^ 64 ∨ s.cfg.addWrap = true) →
        ∃ r : Word, r.toNat = (x.toNat + y.toNat) % 2 ^ 64 ∧
          exec (.add a b) s = .next { s with
            stack := dropPair s.stack (s.indexOf a) (s.indexOf b) ++ [r], pc := s.pc + 1 } ∧
          (dropPair s.stack (s.indexOf a) (s.indexOf b)).length + 2 = s.stack.length))

/-- R130: "Add(a, b) and Add(b, a) have the same effect". -/
def Obligations.AddOperandsCommute : Prop :=
  ∀ (a b : Word) (s : State), exec (.add a b) s = exec (.add b a) s

/-- R131: Dec, in place; Dec of 0 raises (the spec's own decision D6; the tag is D1). -/
def Obligations.DecRule : Prop :=
  ∀ (p : Word) (s : State),
    encode TagMap.default (.dec p) = 0x09 :: wordBytes p ∧
    (s.fromTop p.toNat = none → Raises (.dec p) s .bounds) ∧
    (∀ x, s.fromTop p.toNat = some x →
      (x = 0 → Raises (.dec p) s .arithmetic) ∧
      (∀ r : Word, r.toNat + 1 = x.toNat →
        exec (.dec p) s = .next { s with stack := s.stack.set (s.indexOf p) r, pc := s.pc + 1 }))

/-- R132: Inc, in place; Inc of 2^64 - 1 raises (the spec's own decision D6; the tag is D1). -/
def Obligations.IncRule : Prop :=
  ∀ (p : Word) (s : State),
    encode TagMap.default (.inc p) = 0x0A :: wordBytes p ∧
    (s.fromTop p.toNat = none → Raises (.inc p) s .bounds) ∧
    (∀ x, s.fromTop p.toNat = some x →
      (x.toNat = 2 ^ 64 - 1 → Raises (.inc p) s .arithmetic) ∧
      (∀ r : Word, r.toNat = x.toNat + 1 →
        exec (.inc p) s = .next { s with stack := s.stack.set (s.indexOf p) r, pc := s.pc + 1 }))

/-! ### Control transfer -/

/-- R140: Gt, unsigned; taken it loads pc with exactly its target, else it falls through; nothing else changes. A target past
the end halts cleanly at the next fetch. -/
def Obligations.GtRule : Prop :=
  ∀ (a b t : Word) (s : State),
    encode TagMap.default (.gt a b t) = 0x06 :: (wordBytes a ++ (wordBytes b ++ wordBytes t)) ∧
    (s.fromTop a.toNat = none → Raises (.gt a b t) s .bounds) ∧
    (s.fromTop b.toNat = none → Raises (.gt a b t) s .bounds) ∧
    (∀ x y, s.fromTop a.toNat = some x → s.fromTop b.toNat = some y →
      (y.toNat < x.toNat → exec (.gt a b t) s = .next { s with pc := t }) ∧
      (x.toNat ≤ y.toNat → exec (.gt a b t) s = .next { s with pc := s.pc + 1 })) ∧
    HaltsAtTarget t s

/-- R141: Eq; taken it loads pc with exactly its target, else it falls through; nothing else changes. A target past
the end halts cleanly at the next fetch. -/
def Obligations.EqRule : Prop :=
  ∀ (a b t : Word) (s : State),
    encode TagMap.default (.eq a b t) = 0x07 :: (wordBytes a ++ (wordBytes b ++ wordBytes t)) ∧
    (s.fromTop a.toNat = none → Raises (.eq a b t) s .bounds) ∧
    (s.fromTop b.toNat = none → Raises (.eq a b t) s .bounds) ∧
    (∀ x y, s.fromTop a.toNat = some x → s.fromTop b.toNat = some y →
      (x = y → exec (.eq a b t) s = .next { s with pc := t }) ∧
      (x ≠ y → exec (.eq a b t) s = .next { s with pc := s.pc + 1 })) ∧
    exec (.eq a b t) s = exec (.eq b a t) s ∧ HaltsAtTarget t s

/-- R142: Jmp, from any state and to any target; nothing else changes, and a target past the end halts cleanly at the next
fetch. -/
def Obligations.JmpRule : Prop :=
  ∀ (t : Word) (s : State),
    encode TagMap.default (.jmp t) = 0x08 :: wordBytes t ∧
    exec (.jmp t) s = .next { s with pc := t } ∧
    HaltsAtTarget t s

/-! ### Input and output -/

/-- R53: whatever the environment does at the output port, it accepts the write, fails it, or holds it (the spec's own
decision D22). How the environment's moves are listed is the model's form (log 5). -/
def Obligations.OutputPortAnswersAreExhaustive : Prop :=
  ∀ s : State, (∃ left, PortOk s left) ∨ (∃ k left, PortFails s k left) ∨ (∃ k, PortHolds s k)

/-- R150: Out writes the decimal text of an element and the byte 0x0A, and changes nothing else. The form of the text, the
byte 0x0A, the port's ways to hold or fail a write and the tag are the spec's own decisions D10, D11, D22, D1; a wait's turn
is the model's form (log 2). -/
def Obligations.OutRule : Prop :=
  ∀ (p : Word) (s : State),
    encode TagMap.default (.out p) = 0x01 :: wordBytes p ∧
    (s.fromTop p.toNat = none → Raises (.out p) s .bounds) ∧
    (∀ v, s.fromTop p.toNat = some v → WritesThenFallsThrough (.out p) (decText v ++ [0x0A]) s)

/-- R152: OutStr writes the bytes of its string unchanged and the byte 0x0A (the spec's own decisions D11, D22, D1; a wait's
turn is the model's form, log 2). -/
def Obligations.OutStrRule : Prop :=
  ∀ (str : List Byte) (s : State),
    encode TagMap.default (.outStr str) = 0x03 :: (wordBytes (BitVec.ofNat 64 str.length) ++ str) ∧
    WritesThenFallsThrough (.outStr str) (str ++ [0x0A]) s

/-- R154: OutByte writes one byte, and raises ArithmeticError for a value above 255 (what the port may do is the spec's own
decision D22, the tag D1; a wait's turn is the model's form, log 2). -/
def Obligations.OutByteRule : Prop :=
  ∀ (p : Word) (s : State),
    encode TagMap.default (.outByte p) = 0x0C :: wordBytes p ∧
    (s.fromTop p.toNat = none → Raises (.outByte p) s .bounds) ∧
    (∀ v, s.fromTop p.toNat = some v →
      (255 < v.toNat → Raises (.outByte p) s .arithmetic) ∧
      (∀ b : Byte, b.toNat = v.toNat → WritesThenFallsThrough (.outByte p) [b] s))

/-- R151, R52: In. A listed line is consumed with its terminator, parsed and pushed. Where no terminator is listed, an infinite
sequence gives its next byte, which ends the line or is added to it for the next turn; else the terminal decides: wait, IOError,
clean halt where no byte of a line was there, and `IN_EOF_PARTIAL` where some were.
The grammar and `IN_EOF_PARTIAL`, the IOError, the capacity and pc after the clean halt are the spec's own decisions D9, D14,
D4, D27; a turn that does not complete the line, and keeps the bytes consumed, is the model's form (log 2). -/
def Obligations.InRule : Prop :=
  ∀ s : State,
    encode TagMap.default .inLine = [0x02] ∧
    (∀ line rest, s.unread = line ++ 0x0A :: rest → (0x0A : Byte) ∉ line →
      LineEnds s (s.lineBuf ++ line) (s.inPos + line.length + 1)) ∧
    ((0x0A : Byte) ∉ s.unread →
      (s.inByteAt (s.inPos + s.unread.length) = some 0x0A →
        LineEnds s (s.lineBuf ++ s.unread) (s.inPos + s.unread.length + 1)) ∧
      (∀ b, s.inByteAt (s.inPos + s.unread.length) = some b → b ≠ 0x0A → exec .inLine s = .next { s with
        inPos := s.inPos + s.unread.length + 1, lineBuf := s.lineBuf ++ s.unread ++ [b] }) ∧
      (s.inEnd = .stall → exec .inLine s = .next { s with
        inPos := s.inPos + s.unread.length, lineBuf := s.lineBuf ++ s.unread }) ∧
      (s.inEnd = .ioerr → Raises .inLine s .io) ∧
      (s.inEnd = .eof → s.lineBuf ++ s.unread = [] →
        exec .inLine s = .next { s with status := Status.clean .inputEof }) ∧
      (s.inEnd = .eof → s.lineBuf ++ s.unread ≠ [] → s.cfg.inEofPartial = .parseError → Raises .inLine s .parse) ∧
      (s.inEnd = .eof → s.lineBuf ++ s.unread ≠ [] → s.cfg.inEofPartial = .parse →
        LineEnds s (s.lineBuf ++ s.unread) (s.inPos + s.unread.length)))

/-- R153: InByte pushes the next byte of the input sequence, zero-extended; without one the terminal of the input decides: wait, IOError or
clean halt. The IOError, the capacity and pc after the clean halt are the spec's own decisions D14, D4, D27; a wait's turn is
the model's form (log 2). -/
def Obligations.InByteRule : Prop :=
  ∀ s : State,
    encode TagMap.default .inByte = [0x0B] ∧
    (∀ b, s.inByteAt s.inPos = some b → ¬ s.full →
      exec .inByte s = .next { s with inPos := s.inPos + 1, stack := s.stack ++ [b.setWidth 64], pc := s.pc + 1 }) ∧
    (∀ b, s.inByteAt s.inPos = some b → s.full → Raises .inByte s .stackOverflow) ∧
    (s.inByteAt s.inPos = none →
      (s.inEnd = .stall → exec .inByte s = .next s) ∧
      (s.inEnd = .ioerr → Raises .inByte s .io) ∧
      (s.inEnd = .eof → exec .inByte s = .next { s with status := Status.clean .inputEof }))

/-- R51, R237: one read position serves In and InByte: the bytes a read consumes are those of the input sequence from the
read position on, In's up to and with its terminator, InByte's exactly one, and the next read of either kind begins at the
byte after them. That a turn which does not complete its line has consumed the bytes so far is the model's form (log 2); the
line that the end of the input closes is the spec's own decision D9. -/
def Obligations.ReadsShareOnePosition : Prop :=
  (∀ s t : State, s.status.state = .running → exec .inLine s = .next t → t.status.state = .running →
    (∀ k, t.inByteAt k = s.inByteAt k) ∧
    ∃ bs : List Byte, (0x0A : Byte) ∉ bs ∧ (∀ j < bs.length, bs[j]? = s.inByteAt (s.inPos + j)) ∧
      ((s.inByteAt (s.inPos + bs.length) = some 0x0A ∧ t.inPos = s.inPos + bs.length + 1 ∧ t.lineBuf = []) ∨
        (readGoesOn .inLine s ∧ t.inPos = s.inPos + bs.length ∧ t.lineBuf = s.lineBuf ++ bs ∧ t.pc = s.pc) ∨
        (s.inByteAt (s.inPos + bs.length) = none ∧ s.inEnd = .eof ∧ t.inPos = s.inPos + bs.length ∧ t.lineBuf = []))) ∧
  (∀ s t : State, s.status.state = .running → exec .inByte s = .next t → t.status.state = .running →
    (∀ k, t.inByteAt k = s.inByteAt k) ∧
    ((∃ b, s.inByteAt s.inPos = some b ∧ t.inPos = s.inPos + 1 ∧ t.stack = s.stack ++ [b.setWidth 64]) ∨
      (byteWaits s ∧ t = s)))

/-- R50, R52: an instruction that does not wait for the input port is not changed by what the port answers later. Answers that
arrive by turns are the model's form (log 3, log 5). -/
def Obligations.LaterAnswersChangeNoFinishedRead : Prop :=
  ∀ (i : Instr) (s t : State) (bytes : List Byte) (fin : InEnd), s.inEnd = .stall → ¬ inputWaits i s →
    exec i s = .next t → exec i (s.answerInput bytes fin) = .next (t.answerInput bytes fin)

/-- R51, R107, R215: a wait of In loses no byte: going on after it with the answers that came is the same as having had
them from the start. The wait's turn is the model's form (log 2). -/
def Obligations.WaitingReadLosesNoByte : Prop :=
  ∀ (s w : State) (bytes : List Byte) (fin : InEnd), s.inPos ≤ s.input.length → lineWaits s →
    exec .inLine s = .next w → exec .inLine (w.answerInput bytes fin) = exec .inLine (s.answerInput bytes fin)

/-- R53, R107, R215: a wait for the output port repeats and drops no byte: going on after it with the replies that came is
the same as having had them from the start. The wait's turn is the model's form (log 2). -/
def Obligations.WaitingWriteGoesOnWhereItStopped : Prop :=
  ∀ (i : Instr) (s w : State) (k : Nat) (replies : List OutReply) (fin : OutEnd) (bytes : List Byte),
    PortHolds s k → pendingWrite i s = some bytes → exec i s = .next w →
    exec i (w.answerOutput replies fin) = exec i (s.answerOutput replies fin)

/-- R50, R52: once the input port has come to EOF or IOERR it answers the same for the rest of the run (the spec's own
decision D14), and an infinite sequence (R52) stays the input of the run. Turns and answers by turns are the model's form
(log 3, log 5). -/
def Obligations.InputTerminalIsSticky : Prop :=
  ∀ s t : State, s.inEnd ≠ .stall → (∀ rest, s.events ≠ .reset :: rest) → step s = .next t →
    t.inEnd = s.inEnd ∧ t.input = s.input

/-! ### Frames over all instructions -/

/-- R23: the table of what each instruction does to S; a read that does not complete in this turn (log 2) and
a clean halt (D27) leave it as it is. -/
def Obligations.StackChangesAsTabled : Prop :=
  ∀ (i : Instr) (s t : State), s.status.state = .running → exec i s = .next t →
    (t.status.state = .running → (readGoesOn i s ∧ t.stack = s.stack) ∨ StackEffect i s.stack t.stack) ∧
    (t.status.state = .haltedClean → t.stack = s.stack)

/-- R22, R46, R54, R50: no instruction changes P, the parameters, the schedule or what a port will answer next but by
using it; only In and InByte move the read position; only Out, OutStr and OutByte touch the output.
The read and the write in progress (log 2), the schedule (log 3), the ports' data (log 5), the parameters as a field (log 10)
and the counter of free values (log 12) are the model's own state: for the clauses on them no rule is claimed. -/
def Obligations.InstructionsLeaveTheRestAlone : Prop :=
  ∀ (i : Instr) (s t : State), s.status.state = .running → exec i s = .next t →
    t.prog = s.prog ∧ t.cfg = s.cfg ∧ t.events = s.events ∧ t.input = s.input ∧ t.inEnd = s.inEnd ∧
    t.outEnd = s.outEnd ∧
    (i.writesOutput = false → t.output = s.output ∧ t.outReplies = s.outReplies) ∧
    (t.status.state ≠ .haltedError → t.errInfo = s.errInfo ∧ t.freeIdx = s.freeIdx) ∧
    (t.status.state ≠ .haltedError → i.readsInput = false → t.inPos = s.inPos ∧ t.lineBuf = s.lineBuf) ∧
    (t.status.state ≠ .haltedError → i.writesOutput = false → t.outTaken = s.outTaken)

/-- R25: the fields of STATUS stand at their bits, the reserved bits read as 0, and every code reads as its table says. The layout and the codes are
the spec's own decision D15. -/
def Obligations.StatusWordLayout : Prop :=
  ∀ st : Status,
    st.word.extractLsb 1 0 = st.state.code ∧ st.word.extractLsb 3 2 = st.cause.code ∧
    st.word.extractLsb 7 4 = st.err.code ∧ st.word.extractLsb 11 8 = st.fmtSub.code ∧
    st.word.extractLsb 31 12 = 0 ∧
    Status.idle.word = 0x000 ∧ Status.running.word = 0x001 ∧
    (Status.clean .pcOverrun).word = 0x006 ∧ (Status.clean .inputEof).word = 0x00A ∧
    (Status.error .parse .none).word = 0x023 ∧ (Status.error .bounds .none).word = 0x033 ∧
    (Status.error .arithmetic .none).word = 0x043 ∧ (Status.error .io .none).word = 0x053 ∧
    (Status.error .stackOverflow .none).word = 0x063 ∧ (Status.error .operandAlias .none).word = 0x073 ∧
    (Status.error .format .unknownTag).word = 0x113 ∧ (Status.error .format .truncated).word = 0x213 ∧
    (Status.error .format .invalidUtf8).word = 0x313 ∧ (Status.error .format .programTooLarge).word = 0x413

/-! ### The input sequence (R52) -/

/-- R50, R52: `InRead()` at read position k gets `b_k` where the input sequence of the run has one, and its terminal from where
it ends; an infinite sequence has a byte at every place, its own from where the listed bytes end (log 5). -/
def Obligations.InReadAnswersTheInputSequence : Prop :=
  ∀ s : State,
    (∀ b, s.inByteAt s.inPos = some b → s.inRead = (.byte b, { s with inPos := s.inPos + 1 })) ∧
    (s.inByteAt s.inPos = none →
      (s.inEnd = .eof → s.inRead = (.eof, s)) ∧ (s.inEnd = .ioerr → s.inRead = (.ioerr, s)) ∧
      (s.inEnd = .stall → s.inRead = (.waiting, s))) ∧
    (∀ k, k < s.input.length → s.inByteAt k = s.input[k]?) ∧
    (∀ x k, s.inEnd = .endless x → s.inByteAt (s.input.length + k) = some (x.byte k)) ∧
    ((∀ x, s.inEnd ≠ .endless x) → ∀ k, s.input.length ≤ k → s.inByteAt k = none) ∧
    (∀ first rest k, (Endless.repeating first rest).byte k = (first :: rest)[k % (first :: rest).length]'(Nat.mod_lt _ (by simp)))

/-- R52, R107, R109, R151: In on an infinite sequence. Turn by turn it takes the bytes of its line, while nothing else changes;
so a line without end is a hang and no halt; and the turn after the last byte before a terminator completes the instruction.
That it is one byte a turn is the model's form (log 2). -/
def Obligations.EndlessLineIsReadToItsTerminator : Prop :=
  ∀ (s : State) (x : Endless) (n : Nat), s.engineRuns → s.fetch = some .inLine → s.inEnd = .endless x → s.unread = [] →
    (∀ j < n, s.inByteAt (s.inPos + j) ≠ some 0x0A) →
    ∃ bs : List Byte, bs.length = n ∧ (∀ j < n, bs[j]? = s.inByteAt (s.inPos + j)) ∧
      Host.Core.run core n s = .next { s with inPos := s.inPos + n, lineBuf := s.lineBuf ++ bs } ∧
      (s.inByteAt (s.inPos + n) = some 0x0A →
        LineEnds { s with inPos := s.inPos + n, lineBuf := s.lineBuf ++ bs } (s.lineBuf ++ bs) (s.inPos + n + 1))
end

