-- ==== Sys2Proof/Laws/Codec.lean ====
section
/-! SUPPORT. What the parts of the decoder and the encoder do: fields (R74), tags (R72), the loader's loop (R80). -/

namespace Sys2Proof

/-! ### Fields (R74) -/

@[simp] theorem leBytes_length (n v : Nat) : (leBytes n v).length = n := by
  induction n generalizing v with
  | zero => rfl
  | succ n ih => simp [leBytes, ih]

theorem leNat_leBytes (n v : Nat) : leNat (leBytes n v) = v % 256 ^ n := by
  induction n generalizing v with
  | zero => simp [leBytes, leNat, Nat.mod_one]
  | succ n ih =>
    have h : v % 256 ^ (n + 1) = v % 256 + 256 * (v / 256 % 256 ^ n) := by rw [Nat.pow_succ', Nat.mod_mul]
    rw [leBytes, leNat, ih, BitVec.toNat_ofNat, h]

theorem leNat_append (xs ys : List Byte) : leNat (xs ++ ys) = leNat xs + 256 ^ xs.length * leNat ys := by
  induction xs with
  | nil => simp [leNat]
  | cons b xs ih => simp [leNat, ih, Nat.pow_succ]; ring

@[simp] theorem wordBytes_length (w : Word) : (wordBytes w).length = 8 := leBytes_length 8 w.toNat

theorem leNat_wordBytes (w : Word) : leNat (wordBytes w) = w.toNat := by
  have h := w.isLt
  rw [wordBytes, leNat_leBytes, Nat.mod_eq_of_lt (by omega)]

/-- R74: a field that was written is read back, whatever follows it. -/
theorem takeField_wordBytes (w : Word) (rest : List Byte) : takeField (wordBytes w ++ rest) = some (w, rest) := by
  have h8 : (wordBytes w).length = 8 := wordBytes_length w
  simp [takeField, le64, leNat_wordBytes, h8]

/-! ### Tags (R72) -/

theorem mem_all (op : Opcode) : op ∈ Opcode.all := by cases op <;> simp [Opcode.all]

/-- R72: an injective tag map gives two opcodes two tags. -/
theorem tag_injective (tm : TagMap) (h : tm.wf = true) (x y : Opcode) (hxy : tm.tag x = tm.tag y) : x = y := by
  have hn : (Opcode.all.map tm.tag).Nodup := of_decide_eq_true h
  exact List.inj_on_of_nodup_map hn (mem_all x) (mem_all y) hxy

theorem opcodeOf_some (tm : TagMap) (b : Byte) (op : Opcode) (h : tm.opcodeOf b = some op) : tm.tag op = b := by
  simpa using List.find?_some h

theorem opcodeOf_tag (tm : TagMap) (h : tm.wf = true) (op : Opcode) : tm.opcodeOf (tm.tag op) = some op := by
  cases ho : tm.opcodeOf (tm.tag op) with
  | some op' => rw [tag_injective tm h op' op (opcodeOf_some tm _ op' ho)]
  | none => simpa using List.find?_eq_none.mp ho op (mem_all op)

theorem opcodeOf_eq_none (tm : TagMap) (b : Byte) : tm.opcodeOf b = none ↔ ∀ op, tm.tag op ≠ b := by
  constructor
  · intro h op
    simpa using List.find?_eq_none.mp h op (mem_all op)
  · intro h
    exact List.find?_eq_none.mpr (fun op _ => by simpa using h op)

/-! ### The loader's loop (R80) -/

/-- R80: passing over the rest of a record. -/
theorem decodeFrom_skip (tm : TagMap) (cap : Nat) (xs ys : List Byte) (off : Nat) (acc : List Instr) :
    decodeFrom tm cap (xs ++ ys) xs.length off acc = decodeFrom tm cap ys 0 (off + xs.length) acc := by
  induction xs generalizing off with
  | nil => rfl
  | cons x xs ih => simp [decodeFrom, ih]; congr 1; omega

/-- R80: a record that decodes is passed over and its instruction added, while there is room. -/
theorem decodeFrom_record (tm : TagMap) (cap : Nat) (r ys : List Byte) (i : Instr) (off : Nat) (acc : List Instr)
    (hr : r ≠ []) (h : decodeRecord tm (r ++ ys) = .ok i ys) (hc : acc.length ≠ cap) :
    decodeFrom tm cap (r ++ ys) 0 off acc = decodeFrom tm cap ys 0 (off + r.length) (acc ++ [i]) := by
  cases r with
  | nil => exact absurd rfl hr
  | cons x xs =>
    simp only [List.cons_append] at h
    simp only [List.cons_append, decodeFrom, h, hc, if_false]
    rw [show (xs ++ ys).length - ys.length = xs.length by simp, decodeFrom_skip]
    congr 1
    simp; omega

/-- R80: a record that does not decode is reported at its own offset. -/
theorem decodeFrom_bad (tm : TagMap) (cap : Nat) (x : Byte) (xs : List Byte) (sub : FmtSub) (off : Nat)
    (acc : List Instr) (h : decodeRecord tm (x :: xs) = .bad sub) :
    decodeFrom tm cap (x :: xs) 0 off acc = .formatError sub off := by
  simp [decodeFrom, h]

end Sys2Proof
end

