-- ==== Sys2Proof/Laws/State.lean ====
section
/-! SUPPORT. What each named update of the state does to each field: one lemma per field per update, so that no proof
unfolds a record update. -/

namespace Sys2Proof.Machine

/-! ### setPc -/

@[simp] theorem State.setPc_prog (s : State) (t : Word) : (s.setPc t).prog = s.prog := rfl
@[simp] theorem State.setPc_stack (s : State) (t : Word) : (s.setPc t).stack = s.stack := rfl
@[simp] theorem State.setPc_pc (s : State) (t : Word) : (s.setPc t).pc = t := rfl
@[simp] theorem State.setPc_status (s : State) (t : Word) : (s.setPc t).status = s.status := rfl
@[simp] theorem State.setPc_errInfo (s : State) (t : Word) : (s.setPc t).errInfo = s.errInfo := rfl
@[simp] theorem State.setPc_inPos (s : State) (t : Word) : (s.setPc t).inPos = s.inPos := rfl
@[simp] theorem State.setPc_lineBuf (s : State) (t : Word) : (s.setPc t).lineBuf = s.lineBuf := rfl
@[simp] theorem State.setPc_outTaken (s : State) (t : Word) : (s.setPc t).outTaken = s.outTaken := rfl
@[simp] theorem State.setPc_input (s : State) (t : Word) : (s.setPc t).input = s.input := rfl
@[simp] theorem State.setPc_inEnd (s : State) (t : Word) : (s.setPc t).inEnd = s.inEnd := rfl
@[simp] theorem State.setPc_output (s : State) (t : Word) : (s.setPc t).output = s.output := rfl
@[simp] theorem State.setPc_outReplies (s : State) (t : Word) : (s.setPc t).outReplies = s.outReplies := rfl
@[simp] theorem State.setPc_outEnd (s : State) (t : Word) : (s.setPc t).outEnd = s.outEnd := rfl
@[simp] theorem State.setPc_events (s : State) (t : Word) : (s.setPc t).events = s.events := rfl
@[simp] theorem State.setPc_cfg (s : State) (t : Word) : (s.setPc t).cfg = s.cfg := rfl
@[simp] theorem State.setPc_freeIdx (s : State) (t : Word) : (s.setPc t).freeIdx = s.freeIdx := rfl

/-! ### setStack -/

@[simp] theorem State.setStack_prog (s : State) (l : List Word) : (s.setStack l).prog = s.prog := rfl
@[simp] theorem State.setStack_stack (s : State) (l : List Word) : (s.setStack l).stack = l := rfl
@[simp] theorem State.setStack_pc (s : State) (l : List Word) : (s.setStack l).pc = s.pc := rfl
@[simp] theorem State.setStack_status (s : State) (l : List Word) : (s.setStack l).status = s.status := rfl
@[simp] theorem State.setStack_errInfo (s : State) (l : List Word) : (s.setStack l).errInfo = s.errInfo := rfl
@[simp] theorem State.setStack_inPos (s : State) (l : List Word) : (s.setStack l).inPos = s.inPos := rfl
@[simp] theorem State.setStack_lineBuf (s : State) (l : List Word) : (s.setStack l).lineBuf = s.lineBuf := rfl
@[simp] theorem State.setStack_outTaken (s : State) (l : List Word) : (s.setStack l).outTaken = s.outTaken := rfl
@[simp] theorem State.setStack_input (s : State) (l : List Word) : (s.setStack l).input = s.input := rfl
@[simp] theorem State.setStack_inEnd (s : State) (l : List Word) : (s.setStack l).inEnd = s.inEnd := rfl
@[simp] theorem State.setStack_output (s : State) (l : List Word) : (s.setStack l).output = s.output := rfl
@[simp] theorem State.setStack_outReplies (s : State) (l : List Word) : (s.setStack l).outReplies = s.outReplies := rfl
@[simp] theorem State.setStack_outEnd (s : State) (l : List Word) : (s.setStack l).outEnd = s.outEnd := rfl
@[simp] theorem State.setStack_events (s : State) (l : List Word) : (s.setStack l).events = s.events := rfl
@[simp] theorem State.setStack_cfg (s : State) (l : List Word) : (s.setStack l).cfg = s.cfg := rfl
@[simp] theorem State.setStack_freeIdx (s : State) (l : List Word) : (s.setStack l).freeIdx = s.freeIdx := rfl

/-! ### setStatus -/

@[simp] theorem State.setStatus_prog (s : State) (st : Status) : (s.setStatus st).prog = s.prog := rfl
@[simp] theorem State.setStatus_stack (s : State) (st : Status) : (s.setStatus st).stack = s.stack := rfl
@[simp] theorem State.setStatus_pc (s : State) (st : Status) : (s.setStatus st).pc = s.pc := rfl
@[simp] theorem State.setStatus_status (s : State) (st : Status) : (s.setStatus st).status = st := rfl
@[simp] theorem State.setStatus_errInfo (s : State) (st : Status) : (s.setStatus st).errInfo = s.errInfo := rfl
@[simp] theorem State.setStatus_inPos (s : State) (st : Status) : (s.setStatus st).inPos = s.inPos := rfl
@[simp] theorem State.setStatus_lineBuf (s : State) (st : Status) : (s.setStatus st).lineBuf = s.lineBuf := rfl
@[simp] theorem State.setStatus_outTaken (s : State) (st : Status) : (s.setStatus st).outTaken = s.outTaken := rfl
@[simp] theorem State.setStatus_input (s : State) (st : Status) : (s.setStatus st).input = s.input := rfl
@[simp] theorem State.setStatus_inEnd (s : State) (st : Status) : (s.setStatus st).inEnd = s.inEnd := rfl
@[simp] theorem State.setStatus_output (s : State) (st : Status) : (s.setStatus st).output = s.output := rfl
@[simp] theorem State.setStatus_outReplies (s : State) (st : Status) : (s.setStatus st).outReplies = s.outReplies := rfl
@[simp] theorem State.setStatus_outEnd (s : State) (st : Status) : (s.setStatus st).outEnd = s.outEnd := rfl
@[simp] theorem State.setStatus_events (s : State) (st : Status) : (s.setStatus st).events = s.events := rfl
@[simp] theorem State.setStatus_cfg (s : State) (st : Status) : (s.setStatus st).cfg = s.cfg := rfl
@[simp] theorem State.setStatus_freeIdx (s : State) (st : Status) : (s.setStatus st).freeIdx = s.freeIdx := rfl

/-! ### setLineBuf -/

@[simp] theorem State.setLineBuf_prog (s : State) (l : List Byte) : (s.setLineBuf l).prog = s.prog := rfl
@[simp] theorem State.setLineBuf_stack (s : State) (l : List Byte) : (s.setLineBuf l).stack = s.stack := rfl
@[simp] theorem State.setLineBuf_pc (s : State) (l : List Byte) : (s.setLineBuf l).pc = s.pc := rfl
@[simp] theorem State.setLineBuf_status (s : State) (l : List Byte) : (s.setLineBuf l).status = s.status := rfl
@[simp] theorem State.setLineBuf_errInfo (s : State) (l : List Byte) : (s.setLineBuf l).errInfo = s.errInfo := rfl
@[simp] theorem State.setLineBuf_inPos (s : State) (l : List Byte) : (s.setLineBuf l).inPos = s.inPos := rfl
@[simp] theorem State.setLineBuf_lineBuf (s : State) (l : List Byte) : (s.setLineBuf l).lineBuf = l := rfl
@[simp] theorem State.setLineBuf_outTaken (s : State) (l : List Byte) : (s.setLineBuf l).outTaken = s.outTaken := rfl
@[simp] theorem State.setLineBuf_input (s : State) (l : List Byte) : (s.setLineBuf l).input = s.input := rfl
@[simp] theorem State.setLineBuf_inEnd (s : State) (l : List Byte) : (s.setLineBuf l).inEnd = s.inEnd := rfl
@[simp] theorem State.setLineBuf_output (s : State) (l : List Byte) : (s.setLineBuf l).output = s.output := rfl
@[simp] theorem State.setLineBuf_outReplies (s : State) (l : List Byte) : (s.setLineBuf l).outReplies = s.outReplies := rfl
@[simp] theorem State.setLineBuf_outEnd (s : State) (l : List Byte) : (s.setLineBuf l).outEnd = s.outEnd := rfl
@[simp] theorem State.setLineBuf_events (s : State) (l : List Byte) : (s.setLineBuf l).events = s.events := rfl
@[simp] theorem State.setLineBuf_cfg (s : State) (l : List Byte) : (s.setLineBuf l).cfg = s.cfg := rfl
@[simp] theorem State.setLineBuf_freeIdx (s : State) (l : List Byte) : (s.setLineBuf l).freeIdx = s.freeIdx := rfl

/-! ### setInput -/

@[simp] theorem State.setInput_prog (s : State) (p : Nat) (l : List Byte) : (s.setInput p l).prog = s.prog := rfl
@[simp] theorem State.setInput_stack (s : State) (p : Nat) (l : List Byte) : (s.setInput p l).stack = s.stack := rfl
@[simp] theorem State.setInput_pc (s : State) (p : Nat) (l : List Byte) : (s.setInput p l).pc = s.pc := rfl
@[simp] theorem State.setInput_status (s : State) (p : Nat) (l : List Byte) : (s.setInput p l).status = s.status := rfl
@[simp] theorem State.setInput_errInfo (s : State) (p : Nat) (l : List Byte) : (s.setInput p l).errInfo = s.errInfo := rfl
@[simp] theorem State.setInput_inPos (s : State) (p : Nat) (l : List Byte) : (s.setInput p l).inPos = p := rfl
@[simp] theorem State.setInput_lineBuf (s : State) (p : Nat) (l : List Byte) : (s.setInput p l).lineBuf = l := rfl
@[simp] theorem State.setInput_outTaken (s : State) (p : Nat) (l : List Byte) : (s.setInput p l).outTaken = s.outTaken := rfl
@[simp] theorem State.setInput_input (s : State) (p : Nat) (l : List Byte) : (s.setInput p l).input = s.input := rfl
@[simp] theorem State.setInput_inEnd (s : State) (p : Nat) (l : List Byte) : (s.setInput p l).inEnd = s.inEnd := rfl
@[simp] theorem State.setInput_output (s : State) (p : Nat) (l : List Byte) : (s.setInput p l).output = s.output := rfl
@[simp] theorem State.setInput_outReplies (s : State) (p : Nat) (l : List Byte) : (s.setInput p l).outReplies = s.outReplies := rfl
@[simp] theorem State.setInput_outEnd (s : State) (p : Nat) (l : List Byte) : (s.setInput p l).outEnd = s.outEnd := rfl
@[simp] theorem State.setInput_events (s : State) (p : Nat) (l : List Byte) : (s.setInput p l).events = s.events := rfl
@[simp] theorem State.setInput_cfg (s : State) (p : Nat) (l : List Byte) : (s.setInput p l).cfg = s.cfg := rfl
@[simp] theorem State.setInput_freeIdx (s : State) (p : Nat) (l : List Byte) : (s.setInput p l).freeIdx = s.freeIdx := rfl

/-! ### setOutput -/

@[simp] theorem State.setOutput_prog (s : State) (o : List Byte) (rs : List OutReply) (n : Nat) : (s.setOutput o rs n).prog = s.prog := rfl
@[simp] theorem State.setOutput_stack (s : State) (o : List Byte) (rs : List OutReply) (n : Nat) : (s.setOutput o rs n).stack = s.stack := rfl
@[simp] theorem State.setOutput_pc (s : State) (o : List Byte) (rs : List OutReply) (n : Nat) : (s.setOutput o rs n).pc = s.pc := rfl
@[simp] theorem State.setOutput_status (s : State) (o : List Byte) (rs : List OutReply) (n : Nat) : (s.setOutput o rs n).status = s.status := rfl
@[simp] theorem State.setOutput_errInfo (s : State) (o : List Byte) (rs : List OutReply) (n : Nat) : (s.setOutput o rs n).errInfo = s.errInfo := rfl
@[simp] theorem State.setOutput_inPos (s : State) (o : List Byte) (rs : List OutReply) (n : Nat) : (s.setOutput o rs n).inPos = s.inPos := rfl
@[simp] theorem State.setOutput_lineBuf (s : State) (o : List Byte) (rs : List OutReply) (n : Nat) : (s.setOutput o rs n).lineBuf = s.lineBuf := rfl
@[simp] theorem State.setOutput_outTaken (s : State) (o : List Byte) (rs : List OutReply) (n : Nat) : (s.setOutput o rs n).outTaken = n := rfl
@[simp] theorem State.setOutput_input (s : State) (o : List Byte) (rs : List OutReply) (n : Nat) : (s.setOutput o rs n).input = s.input := rfl
@[simp] theorem State.setOutput_inEnd (s : State) (o : List Byte) (rs : List OutReply) (n : Nat) : (s.setOutput o rs n).inEnd = s.inEnd := rfl
@[simp] theorem State.setOutput_output (s : State) (o : List Byte) (rs : List OutReply) (n : Nat) : (s.setOutput o rs n).output = o := rfl
@[simp] theorem State.setOutput_outReplies (s : State) (o : List Byte) (rs : List OutReply) (n : Nat) : (s.setOutput o rs n).outReplies = rs := rfl
@[simp] theorem State.setOutput_outEnd (s : State) (o : List Byte) (rs : List OutReply) (n : Nat) : (s.setOutput o rs n).outEnd = s.outEnd := rfl
@[simp] theorem State.setOutput_events (s : State) (o : List Byte) (rs : List OutReply) (n : Nat) : (s.setOutput o rs n).events = s.events := rfl
@[simp] theorem State.setOutput_cfg (s : State) (o : List Byte) (rs : List OutReply) (n : Nat) : (s.setOutput o rs n).cfg = s.cfg := rfl
@[simp] theorem State.setOutput_freeIdx (s : State) (o : List Byte) (rs : List OutReply) (n : Nat) : (s.setOutput o rs n).freeIdx = s.freeIdx := rfl

/-! ### enterError -/

@[simp] theorem State.enterError_prog (s : State) (e : Err) (sub : FmtSub) (info : Word) : (s.enterError e sub info).prog = s.prog := rfl
@[simp] theorem State.enterError_stack (s : State) (e : Err) (sub : FmtSub) (info : Word) : (s.enterError e sub info).stack = boundStack s.cfg.stackCap (Config.errorStack s.freeIdx) := rfl
@[simp] theorem State.enterError_pc (s : State) (e : Err) (sub : FmtSub) (info : Word) : (s.enterError e sub info).pc = Config.errorPc s.freeIdx := rfl
@[simp] theorem State.enterError_status (s : State) (e : Err) (sub : FmtSub) (info : Word) : (s.enterError e sub info).status = Status.error e sub := rfl
@[simp] theorem State.enterError_errInfo (s : State) (e : Err) (sub : FmtSub) (info : Word) : (s.enterError e sub info).errInfo = info := rfl
@[simp] theorem State.enterError_inPos (s : State) (e : Err) (sub : FmtSub) (info : Word) : (s.enterError e sub info).inPos = Config.errorInPos s.freeIdx := rfl
@[simp] theorem State.enterError_lineBuf (s : State) (e : Err) (sub : FmtSub) (info : Word) : (s.enterError e sub info).lineBuf = [] := rfl
@[simp] theorem State.enterError_outTaken (s : State) (e : Err) (sub : FmtSub) (info : Word) : (s.enterError e sub info).outTaken = 0 := rfl
@[simp] theorem State.enterError_input (s : State) (e : Err) (sub : FmtSub) (info : Word) : (s.enterError e sub info).input = s.input := rfl
@[simp] theorem State.enterError_inEnd (s : State) (e : Err) (sub : FmtSub) (info : Word) : (s.enterError e sub info).inEnd = s.inEnd := rfl
@[simp] theorem State.enterError_output (s : State) (e : Err) (sub : FmtSub) (info : Word) : (s.enterError e sub info).output = s.output := rfl
@[simp] theorem State.enterError_outReplies (s : State) (e : Err) (sub : FmtSub) (info : Word) : (s.enterError e sub info).outReplies = s.outReplies := rfl
@[simp] theorem State.enterError_outEnd (s : State) (e : Err) (sub : FmtSub) (info : Word) : (s.enterError e sub info).outEnd = s.outEnd := rfl
@[simp] theorem State.enterError_events (s : State) (e : Err) (sub : FmtSub) (info : Word) : (s.enterError e sub info).events = s.events := rfl
@[simp] theorem State.enterError_cfg (s : State) (e : Err) (sub : FmtSub) (info : Word) : (s.enterError e sub info).cfg = s.cfg := rfl
@[simp] theorem State.enterError_freeIdx (s : State) (e : Err) (sub : FmtSub) (info : Word) : (s.enterError e sub info).freeIdx = s.freeIdx + 1 := rfl

/-! ### haltClean -/

@[simp] theorem State.haltClean_prog (s : State) (c : HaltCause) : (s.haltClean c).prog = s.prog := rfl
@[simp] theorem State.haltClean_stack (s : State) (c : HaltCause) : (s.haltClean c).stack = s.stack := rfl
@[simp] theorem State.haltClean_pc (s : State) (c : HaltCause) : (s.haltClean c).pc = s.pc := rfl
@[simp] theorem State.haltClean_status (s : State) (c : HaltCause) : (s.haltClean c).status = Status.clean c := rfl
@[simp] theorem State.haltClean_errInfo (s : State) (c : HaltCause) : (s.haltClean c).errInfo = s.errInfo := rfl
@[simp] theorem State.haltClean_inPos (s : State) (c : HaltCause) : (s.haltClean c).inPos = s.inPos := rfl
@[simp] theorem State.haltClean_lineBuf (s : State) (c : HaltCause) : (s.haltClean c).lineBuf = s.lineBuf := rfl
@[simp] theorem State.haltClean_outTaken (s : State) (c : HaltCause) : (s.haltClean c).outTaken = s.outTaken := rfl
@[simp] theorem State.haltClean_input (s : State) (c : HaltCause) : (s.haltClean c).input = s.input := rfl
@[simp] theorem State.haltClean_inEnd (s : State) (c : HaltCause) : (s.haltClean c).inEnd = s.inEnd := rfl
@[simp] theorem State.haltClean_output (s : State) (c : HaltCause) : (s.haltClean c).output = s.output := rfl
@[simp] theorem State.haltClean_outReplies (s : State) (c : HaltCause) : (s.haltClean c).outReplies = s.outReplies := rfl
@[simp] theorem State.haltClean_outEnd (s : State) (c : HaltCause) : (s.haltClean c).outEnd = s.outEnd := rfl
@[simp] theorem State.haltClean_events (s : State) (c : HaltCause) : (s.haltClean c).events = s.events := rfl
@[simp] theorem State.haltClean_cfg (s : State) (c : HaltCause) : (s.haltClean c).cfg = s.cfg := rfl
@[simp] theorem State.haltClean_freeIdx (s : State) (c : HaltCause) : (s.haltClean c).freeIdx = s.freeIdx := rfl

/-! ### hostReset -/

@[simp] theorem State.hostReset_prog (s : State) : s.hostReset.prog = [] := rfl
@[simp] theorem State.hostReset_stack (s : State) : s.hostReset.stack = [] := rfl
@[simp] theorem State.hostReset_pc (s : State) : s.hostReset.pc = 0 := rfl
@[simp] theorem State.hostReset_status (s : State) : s.hostReset.status = Status.idle := rfl
@[simp] theorem State.hostReset_errInfo (s : State) : s.hostReset.errInfo = 0 := rfl
@[simp] theorem State.hostReset_inPos (s : State) : s.hostReset.inPos = 0 := rfl
@[simp] theorem State.hostReset_lineBuf (s : State) : s.hostReset.lineBuf = [] := rfl
@[simp] theorem State.hostReset_outTaken (s : State) : s.hostReset.outTaken = 0 := rfl
@[simp] theorem State.hostReset_input (s : State) : s.hostReset.input = [] := rfl
@[simp] theorem State.hostReset_inEnd (s : State) : s.hostReset.inEnd = .stall := rfl
@[simp] theorem State.hostReset_output (s : State) : s.hostReset.output = s.output := rfl
@[simp] theorem State.hostReset_outReplies (s : State) : s.hostReset.outReplies = s.outReplies := rfl
@[simp] theorem State.hostReset_outEnd (s : State) : s.hostReset.outEnd = s.outEnd := rfl
@[simp] theorem State.hostReset_events (s : State) : s.hostReset.events = s.events := rfl
@[simp] theorem State.hostReset_cfg (s : State) : s.hostReset.cfg = s.cfg := rfl
@[simp] theorem State.hostReset_freeIdx (s : State) : s.hostReset.freeIdx = s.freeIdx := rfl

/-! ### install -/

@[simp] theorem State.install_prog (s : State) (P : List Instr) : (s.install P).prog = P := rfl
@[simp] theorem State.install_stack (s : State) (P : List Instr) : (s.install P).stack = [] := rfl
@[simp] theorem State.install_pc (s : State) (P : List Instr) : (s.install P).pc = 0 := rfl
@[simp] theorem State.install_status (s : State) (P : List Instr) : (s.install P).status = Status.running := rfl
@[simp] theorem State.install_errInfo (s : State) (P : List Instr) : (s.install P).errInfo = 0 := rfl
@[simp] theorem State.install_inPos (s : State) (P : List Instr) : (s.install P).inPos = 0 := rfl
@[simp] theorem State.install_lineBuf (s : State) (P : List Instr) : (s.install P).lineBuf = s.lineBuf := rfl
@[simp] theorem State.install_outTaken (s : State) (P : List Instr) : (s.install P).outTaken = s.outTaken := rfl
@[simp] theorem State.install_input (s : State) (P : List Instr) : (s.install P).input = s.input := rfl
@[simp] theorem State.install_inEnd (s : State) (P : List Instr) : (s.install P).inEnd = s.inEnd := rfl
@[simp] theorem State.install_output (s : State) (P : List Instr) : (s.install P).output = s.output := rfl
@[simp] theorem State.install_outReplies (s : State) (P : List Instr) : (s.install P).outReplies = s.outReplies := rfl
@[simp] theorem State.install_outEnd (s : State) (P : List Instr) : (s.install P).outEnd = s.outEnd := rfl
@[simp] theorem State.install_events (s : State) (P : List Instr) : (s.install P).events = s.events := rfl
@[simp] theorem State.install_cfg (s : State) (P : List Instr) : (s.install P).cfg = s.cfg := rfl
@[simp] theorem State.install_freeIdx (s : State) (P : List Instr) : (s.install P).freeIdx = s.freeIdx := rfl

/-! ### answerOutput -/

@[simp] theorem State.answerOutput_prog (s : State) (rs : List OutReply) (fin : OutEnd) : (s.answerOutput rs fin).prog = s.prog := rfl
@[simp] theorem State.answerOutput_stack (s : State) (rs : List OutReply) (fin : OutEnd) : (s.answerOutput rs fin).stack = s.stack := rfl
@[simp] theorem State.answerOutput_pc (s : State) (rs : List OutReply) (fin : OutEnd) : (s.answerOutput rs fin).pc = s.pc := rfl
@[simp] theorem State.answerOutput_status (s : State) (rs : List OutReply) (fin : OutEnd) : (s.answerOutput rs fin).status = s.status := rfl
@[simp] theorem State.answerOutput_errInfo (s : State) (rs : List OutReply) (fin : OutEnd) : (s.answerOutput rs fin).errInfo = s.errInfo := rfl
@[simp] theorem State.answerOutput_inPos (s : State) (rs : List OutReply) (fin : OutEnd) : (s.answerOutput rs fin).inPos = s.inPos := rfl
@[simp] theorem State.answerOutput_lineBuf (s : State) (rs : List OutReply) (fin : OutEnd) : (s.answerOutput rs fin).lineBuf = s.lineBuf := rfl
@[simp] theorem State.answerOutput_outTaken (s : State) (rs : List OutReply) (fin : OutEnd) : (s.answerOutput rs fin).outTaken = s.outTaken := rfl
@[simp] theorem State.answerOutput_input (s : State) (rs : List OutReply) (fin : OutEnd) : (s.answerOutput rs fin).input = s.input := rfl
@[simp] theorem State.answerOutput_inEnd (s : State) (rs : List OutReply) (fin : OutEnd) : (s.answerOutput rs fin).inEnd = s.inEnd := rfl
@[simp] theorem State.answerOutput_output (s : State) (rs : List OutReply) (fin : OutEnd) : (s.answerOutput rs fin).output = s.output := rfl
@[simp] theorem State.answerOutput_outReplies (s : State) (rs : List OutReply) (fin : OutEnd) : (s.answerOutput rs fin).outReplies = s.outReplies ++ rs := rfl
@[simp] theorem State.answerOutput_outEnd (s : State) (rs : List OutReply) (fin : OutEnd) : (s.answerOutput rs fin).outEnd = fin := rfl
@[simp] theorem State.answerOutput_events (s : State) (rs : List OutReply) (fin : OutEnd) : (s.answerOutput rs fin).events = s.events := rfl
@[simp] theorem State.answerOutput_cfg (s : State) (rs : List OutReply) (fin : OutEnd) : (s.answerOutput rs fin).cfg = s.cfg := rfl
@[simp] theorem State.answerOutput_freeIdx (s : State) (rs : List OutReply) (fin : OutEnd) : (s.answerOutput rs fin).freeIdx = s.freeIdx := rfl

/-! ### writeSlot -/

@[simp] theorem State.writeSlot_prog (s : State) (i : Nat) (v : Word) : (s.writeSlot i v).prog = s.prog := rfl
@[simp] theorem State.writeSlot_stack (s : State) (i : Nat) (v : Word) : (s.writeSlot i v).stack = s.stack.set i v := rfl
@[simp] theorem State.writeSlot_pc (s : State) (i : Nat) (v : Word) : (s.writeSlot i v).pc = s.pc := rfl
@[simp] theorem State.writeSlot_status (s : State) (i : Nat) (v : Word) : (s.writeSlot i v).status = s.status := rfl
@[simp] theorem State.writeSlot_errInfo (s : State) (i : Nat) (v : Word) : (s.writeSlot i v).errInfo = s.errInfo := rfl
@[simp] theorem State.writeSlot_inPos (s : State) (i : Nat) (v : Word) : (s.writeSlot i v).inPos = s.inPos := rfl
@[simp] theorem State.writeSlot_lineBuf (s : State) (i : Nat) (v : Word) : (s.writeSlot i v).lineBuf = s.lineBuf := rfl
@[simp] theorem State.writeSlot_outTaken (s : State) (i : Nat) (v : Word) : (s.writeSlot i v).outTaken = s.outTaken := rfl
@[simp] theorem State.writeSlot_input (s : State) (i : Nat) (v : Word) : (s.writeSlot i v).input = s.input := rfl
@[simp] theorem State.writeSlot_inEnd (s : State) (i : Nat) (v : Word) : (s.writeSlot i v).inEnd = s.inEnd := rfl
@[simp] theorem State.writeSlot_output (s : State) (i : Nat) (v : Word) : (s.writeSlot i v).output = s.output := rfl
@[simp] theorem State.writeSlot_outReplies (s : State) (i : Nat) (v : Word) : (s.writeSlot i v).outReplies = s.outReplies := rfl
@[simp] theorem State.writeSlot_outEnd (s : State) (i : Nat) (v : Word) : (s.writeSlot i v).outEnd = s.outEnd := rfl
@[simp] theorem State.writeSlot_events (s : State) (i : Nat) (v : Word) : (s.writeSlot i v).events = s.events := rfl
@[simp] theorem State.writeSlot_cfg (s : State) (i : Nat) (v : Word) : (s.writeSlot i v).cfg = s.cfg := rfl
@[simp] theorem State.writeSlot_freeIdx (s : State) (i : Nat) (v : Word) : (s.writeSlot i v).freeIdx = s.freeIdx := rfl

/-! ### removeSlot -/

@[simp] theorem State.removeSlot_prog (s : State) (i : Nat) : (s.removeSlot i).prog = s.prog := rfl
@[simp] theorem State.removeSlot_stack (s : State) (i : Nat) : (s.removeSlot i).stack = s.stack.eraseIdx i := rfl
@[simp] theorem State.removeSlot_pc (s : State) (i : Nat) : (s.removeSlot i).pc = s.pc := rfl
@[simp] theorem State.removeSlot_status (s : State) (i : Nat) : (s.removeSlot i).status = s.status := rfl
@[simp] theorem State.removeSlot_errInfo (s : State) (i : Nat) : (s.removeSlot i).errInfo = s.errInfo := rfl
@[simp] theorem State.removeSlot_inPos (s : State) (i : Nat) : (s.removeSlot i).inPos = s.inPos := rfl
@[simp] theorem State.removeSlot_lineBuf (s : State) (i : Nat) : (s.removeSlot i).lineBuf = s.lineBuf := rfl
@[simp] theorem State.removeSlot_outTaken (s : State) (i : Nat) : (s.removeSlot i).outTaken = s.outTaken := rfl
@[simp] theorem State.removeSlot_input (s : State) (i : Nat) : (s.removeSlot i).input = s.input := rfl
@[simp] theorem State.removeSlot_inEnd (s : State) (i : Nat) : (s.removeSlot i).inEnd = s.inEnd := rfl
@[simp] theorem State.removeSlot_output (s : State) (i : Nat) : (s.removeSlot i).output = s.output := rfl
@[simp] theorem State.removeSlot_outReplies (s : State) (i : Nat) : (s.removeSlot i).outReplies = s.outReplies := rfl
@[simp] theorem State.removeSlot_outEnd (s : State) (i : Nat) : (s.removeSlot i).outEnd = s.outEnd := rfl
@[simp] theorem State.removeSlot_events (s : State) (i : Nat) : (s.removeSlot i).events = s.events := rfl
@[simp] theorem State.removeSlot_cfg (s : State) (i : Nat) : (s.removeSlot i).cfg = s.cfg := rfl
@[simp] theorem State.removeSlot_freeIdx (s : State) (i : Nat) : (s.removeSlot i).freeIdx = s.freeIdx := rfl

/-! ### answerInput -/

@[simp] theorem State.answerInput_prog (s : State) (bs : List Byte) (fin : InEnd) : (s.answerInput bs fin).prog = s.prog := by
  unfold State.answerInput; cases s.inEnd <;> rfl
@[simp] theorem State.answerInput_stack (s : State) (bs : List Byte) (fin : InEnd) : (s.answerInput bs fin).stack = s.stack := by
  unfold State.answerInput; cases s.inEnd <;> rfl
@[simp] theorem State.answerInput_pc (s : State) (bs : List Byte) (fin : InEnd) : (s.answerInput bs fin).pc = s.pc := by
  unfold State.answerInput; cases s.inEnd <;> rfl
@[simp] theorem State.answerInput_status (s : State) (bs : List Byte) (fin : InEnd) : (s.answerInput bs fin).status = s.status := by
  unfold State.answerInput; cases s.inEnd <;> rfl
@[simp] theorem State.answerInput_errInfo (s : State) (bs : List Byte) (fin : InEnd) : (s.answerInput bs fin).errInfo = s.errInfo := by
  unfold State.answerInput; cases s.inEnd <;> rfl
@[simp] theorem State.answerInput_inPos (s : State) (bs : List Byte) (fin : InEnd) : (s.answerInput bs fin).inPos = s.inPos := by
  unfold State.answerInput; cases s.inEnd <;> rfl
@[simp] theorem State.answerInput_lineBuf (s : State) (bs : List Byte) (fin : InEnd) : (s.answerInput bs fin).lineBuf = s.lineBuf := by
  unfold State.answerInput; cases s.inEnd <;> rfl
@[simp] theorem State.answerInput_outTaken (s : State) (bs : List Byte) (fin : InEnd) : (s.answerInput bs fin).outTaken = s.outTaken := by
  unfold State.answerInput; cases s.inEnd <;> rfl
@[simp] theorem State.answerInput_output (s : State) (bs : List Byte) (fin : InEnd) : (s.answerInput bs fin).output = s.output := by
  unfold State.answerInput; cases s.inEnd <;> rfl
@[simp] theorem State.answerInput_outReplies (s : State) (bs : List Byte) (fin : InEnd) : (s.answerInput bs fin).outReplies = s.outReplies := by
  unfold State.answerInput; cases s.inEnd <;> rfl
@[simp] theorem State.answerInput_outEnd (s : State) (bs : List Byte) (fin : InEnd) : (s.answerInput bs fin).outEnd = s.outEnd := by
  unfold State.answerInput; cases s.inEnd <;> rfl
@[simp] theorem State.answerInput_events (s : State) (bs : List Byte) (fin : InEnd) : (s.answerInput bs fin).events = s.events := by
  unfold State.answerInput; cases s.inEnd <;> rfl
@[simp] theorem State.answerInput_cfg (s : State) (bs : List Byte) (fin : InEnd) : (s.answerInput bs fin).cfg = s.cfg := by
  unfold State.answerInput; cases s.inEnd <;> rfl
@[simp] theorem State.answerInput_freeIdx (s : State) (bs : List Byte) (fin : InEnd) : (s.answerInput bs fin).freeIdx = s.freeIdx := by
  unfold State.answerInput; cases s.inEnd <;> rfl

/-- R50: while the port has not answered, further answers are added. -/
theorem State.answerInput_of_stall (s : State) (bs : List Byte) (fin : InEnd) (h : s.inEnd = .stall) :
    s.answerInput bs fin = { s with input := s.input ++ bs, inEnd := fin } := by
  simp [State.answerInput, h]

/-- R50, R52: EOF and IOERR are sticky, and an infinite sequence does not end. -/
theorem State.answerInput_of_terminal (s : State) (bs : List Byte) (fin : InEnd) (h : s.inEnd ≠ .stall) :
    s.answerInput bs fin = s := by
  unfold State.answerInput
  cases h' : s.inEnd with
  | stall => exact absurd h' h
  | eof => rfl
  | ioerr => rfl
  | endless _ => rfl

end Sys2Proof.Machine
end

