-- ==== Sys2Proof/Laws/Ops.lean ====
section
/-! SUPPORT. One lemma per shared operation that says once what it can do. -/

namespace Sys2Proof.Machine

/-! ### Outcomes (R105) -/

@[simp] theorem conclude_fallthrough (s : State) : conclude .fallthrough s = .next (s.setPc (s.pc + 1)) := rfl
@[simp] theorem conclude_jump (t : Word) (s : State) : conclude (.jump t) s = .next (s.setPc t) := rfl
@[simp] theorem conclude_haltClean (c : HaltCause) (s : State) : conclude (.haltClean c) s = .next (s.haltClean c) := rfl
@[simp] theorem conclude_raise (e : Err) (s : State) : conclude (.raise e) s = .next (s.enterError e .none s.pc) := rfl
@[simp] theorem conclude_wait (s : State) : conclude .wait s = .next s := rfl

/-- Every outcome of an instruction is a next state. -/
theorem conclude_next (e : Ending) (s : State) : ∃ t, conclude e s = .next t := by cases e <;> exact ⟨_, rfl⟩

/-- R201, R202: what an error entry fixes. -/
theorem enterError_entry (s : State) (e : Err) : ErrorEntry s (s.enterError e .none s.pc) e := by
  constructor <;> rfl

/-- An error entry from a state that differs only in what the entry leaves open. -/
theorem enterError_entry_of (s s' : State) (e : Err) (hp : s'.pc = s.pc) (h1 : s'.prog = s.prog)
    (h2 : s'.input = s.input) (h3 : s'.inEnd = s.inEnd) (h4 : s'.output = s.output)
    (h5 : s'.outReplies = s.outReplies) (h6 : s'.outEnd = s.outEnd) (h7 : s'.events = s.events)
    (h8 : s'.cfg = s.cfg) : ErrorEntry s (s'.enterError e .none s'.pc) e := by
  constructor <;> simp [*]

/-! ### Push (R104) -/

theorem push_of_full (s : State) (v : Word) (h : s.full) : s.push v = none := by
  unfold State.full at h
  simp [State.push, h]

theorem push_of_not_full (s : State) (v : Word) (h : ¬ s.full) : s.push v = some (s.setStack (s.stack ++ [v])) := by
  unfold State.full at h
  simp [State.push, h]

theorem concludePush_of_full (s : State) (v : Word) (h : s.full) :
    concludePush v s = .next (s.enterError .stackOverflow .none s.pc) := by
  simp [concludePush, push_of_full s v h]

theorem concludePush_of_not_full (s : State) (v : Word) (h : ¬ s.full) :
    concludePush v s = .next ((s.setStack (s.stack ++ [v])).setPc (s.pc + 1)) := by
  simp [concludePush, push_of_not_full s v h]

/-- R104: a push ends in one of two ways. -/
theorem concludePush_cases (s : State) (v : Word) :
    (s.full ∧ concludePush v s = .next (s.enterError .stackOverflow .none s.pc)) ∨
    (¬ s.full ∧ concludePush v s = .next ((s.setStack (s.stack ++ [v])).setPc (s.pc + 1))) := by
  by_cases h : s.full
  · exact .inl ⟨h, concludePush_of_full s v h⟩
  · exact .inr ⟨h, concludePush_of_not_full s v h⟩

/-! ### Offsets (R102) -/

theorem resolve_of_lt (s : State) (k : Word) (h : k.toNat < s.stack.length) : s.resolve k = some (s.indexOf k) := by
  simp [State.resolve, State.indexOf, h]

theorem resolve_of_ge (s : State) (k : Word) (h : s.stack.length ≤ k.toNat) : s.resolve k = none := by
  simp [State.resolve, Nat.not_lt.mpr h]

/-- R102: an offset operand is the index counted from the bottom with the element counted from the top. -/
theorem operand_eq (s : State) (k : Word) : s.operand k = (s.fromTop k.toNat).map (fun v => (s.indexOf k, v)) := by
  by_cases h : k.toNat < s.stack.length
  · simp [State.operand, resolve_of_lt s k h, State.fromTop, State.indexOf, List.getElem?_reverse h]
  · simp [State.operand, resolve_of_ge s k (Nat.not_lt.mp h), State.fromTop, Nat.not_lt.mp h]

theorem fromTop_eq_none (s : State) (k : Nat) : s.fromTop k = none ↔ s.stack.length ≤ k := by
  simp [State.fromTop]

theorem fromTop_isSome_lt (s : State) (k : Nat) (v : Word) (h : s.fromTop k = some v) : k < s.stack.length := by
  have := (List.getElem?_eq_some_iff.mp h).1
  simpa using this

theorem operand_of_none (s : State) (k : Word) (h : s.fromTop k.toNat = none) : s.operand k = none := by
  simp [operand_eq, h]

theorem operand_of_some (s : State) (k v : Word) (h : s.fromTop k.toNat = some v) :
    s.operand k = some (s.indexOf k, v) := by
  simp [operand_eq, h]

/-! ### The input port (R50, R151) -/

/-- R151: with no terminator there, all the bytes are of the line. -/
theorem takeLine_of_not_mem (bs : List Byte) (h : newline ∉ bs) : takeLine bs = (bs, false) := by
  induction bs with
  | nil => rfl
  | cons b rest ih =>
    simp only [List.mem_cons, not_or] at h
    simp [takeLine, Ne.symm h.1, ih h.2]

/-- R151: the line ends at the first terminator, whatever stands after it. -/
theorem takeLine_of_line (line rest : List Byte) (h : newline ∉ line) :
    takeLine (line ++ newline :: rest) = (line, true) := by
  induction line with
  | nil => simp [takeLine]
  | cons b l ih =>
    simp only [List.mem_cons, not_or] at h
    simp [takeLine, Ne.symm h.1, ih h.2]

/-- A terminator splits the bytes at its first place. -/
theorem exists_line_of_mem (bs : List Byte) (h : newline ∈ bs) :
    ∃ line rest, newline ∉ line ∧ bs = line ++ newline :: rest := by
  induction bs with
  | nil => simp at h
  | cons b rest ih =>
    by_cases hb : b = newline
    · exact ⟨[], rest, by simp, by simp [hb]⟩
    · have hr : newline ∈ rest := by
        rcases List.mem_cons.mp h with h | h
        · exact absurd h.symm hb
        · exact h
      obtain ⟨line, r, h1, h2⟩ := ih hr
      exact ⟨b :: line, r, by simp [h1, Ne.symm hb], by simp [h2]⟩

theorem readLine_of_line (s : State) (line rest : List Byte) (h : newline ∉ line)
    (hu : s.unread = line ++ newline :: rest) :
    s.readLine = (true, s.setInput (s.inPos + line.length + 1) (s.lineBuf ++ line)) := by
  unfold State.unread at hu
  simp [State.readLine, hu, takeLine_of_line line rest h]

theorem readLine_of_not_mem (s : State) (h : newline ∉ s.unread) :
    s.readLine = (false, s.setInput (s.inPos + s.unread.length) (s.lineBuf ++ s.unread)) := by
  unfold State.unread at h
  simp [State.readLine, State.unread, takeLine_of_not_mem _ h]

theorem inAnswer_of_nil (s : State) (h : s.unread = []) : s.inAnswer = s.inEnd.answer (s.inPos - s.input.length) := by
  have hb : s.input[s.inPos]? = none := by
    simpa [State.unread] using h
  simp [State.inAnswer, hb]

/-- R52: the byte at a listed place. -/
theorem inByteAt_of_lt (s : State) (k : Nat) (h : k < s.input.length) : s.inByteAt k = some s.input[k] := by
  unfold State.inByteAt
  split <;> simp [h]

/-- R52: only an infinite sequence has a byte past the listed ones. -/
theorem inByteAt_of_ge (s : State) (k : Nat) (h : s.input.length ≤ k) :
    s.inByteAt k = match s.inEnd with | .endless x => some (x.byte (k - s.input.length)) | _ => none := by
  unfold State.inByteAt
  split <;> simp [*]

/-- R52: the sequence is a matter of the listed bytes and of what follows them. -/
theorem inByteAt_congr {s t : State} (h1 : t.input = s.input) (h2 : t.inEnd = s.inEnd) (k : Nat) :
    t.inByteAt k = s.inByteAt k := by
  unfold State.inByteAt
  rw [h2]
  split <;> simp [h1]

@[simp] theorem setPc_inByteAt (s : State) (t : Word) (k : Nat) : (s.setPc t).inByteAt k = s.inByteAt k := rfl
@[simp] theorem setStack_inByteAt (s : State) (l : List Word) (k : Nat) : (s.setStack l).inByteAt k = s.inByteAt k := rfl
@[simp] theorem setStatus_inByteAt (s : State) (st : Status) (k : Nat) : (s.setStatus st).inByteAt k = s.inByteAt k := rfl
@[simp] theorem setLineBuf_inByteAt (s : State) (l : List Byte) (k : Nat) : (s.setLineBuf l).inByteAt k = s.inByteAt k := rfl
@[simp] theorem setInput_inByteAt (s : State) (p : Nat) (l : List Byte) (k : Nat) : (s.setInput p l).inByteAt k = s.inByteAt k := rfl
@[simp] theorem setOutput_inByteAt (s : State) (o : List Byte) (rs : List OutReply) (n : Nat) (k : Nat) : (s.setOutput o rs n).inByteAt k = s.inByteAt k := rfl
@[simp] theorem enterError_inByteAt (s : State) (e : Err) (sub : FmtSub) (info : Word) (k : Nat) : (s.enterError e sub info).inByteAt k = s.inByteAt k := rfl
@[simp] theorem haltClean_inByteAt (s : State) (c : HaltCause) (k : Nat) : (s.haltClean c).inByteAt k = s.inByteAt k := rfl
@[simp] theorem install_inByteAt (s : State) (P : List Instr) (k : Nat) : (s.install P).inByteAt k = s.inByteAt k := rfl
@[simp] theorem answerOutput_inByteAt (s : State) (rs : List OutReply) (fin : OutEnd) (k : Nat) : (s.answerOutput rs fin).inByteAt k = s.inByteAt k := rfl

/-- R50, R52: later answers change no byte that the sequence has already. -/
theorem answerInput_inByteAt (s : State) (bytes : List Byte) (fin : InEnd) (k : Nat) (h : (s.inByteAt k).isSome) :
    (s.answerInput bytes fin).inByteAt k = s.inByteAt k := by
  by_cases hs : s.inEnd = .stall
  · have hk : k < s.input.length := by
      by_contra hc
      rw [inByteAt_of_ge s k (Nat.not_lt.mp hc), hs] at h
      simp at h
    rw [State.answerInput_of_stall s bytes fin hs, inByteAt_of_lt s k hk, inByteAt_of_lt _ k (by simp; omega)]
    simp [List.getElem_append_left hk]
  · rw [State.answerInput_of_terminal s bytes fin hs]

/-- R52: the listed bytes are the sequence from the read position on. -/
theorem unread_getElem? (s : State) (j : Nat) (h : j < s.unread.length) :
    s.unread[j]? = s.inByteAt (s.inPos + j) := by
  simp only [State.unread, List.length_drop] at h
  rw [inByteAt_of_lt s _ (by omega)]
  simp only [State.unread, List.getElem?_drop]
  rw [List.getElem?_eq_getElem]

/-- R50, R52: `InRead()` answers the sequence at the read position, and its terminal from where it ends. -/
theorem inRead_cases (s : State) :
    (∃ b, s.inByteAt s.inPos = some b ∧ s.inRead = (.byte b, s.setInput (s.inPos + 1) s.lineBuf)) ∨
    (s.inByteAt s.inPos = none ∧ s.unread = [] ∧
      ((s.inEnd = .eof ∧ s.inRead = (.eof, s)) ∨ (s.inEnd = .ioerr ∧ s.inRead = (.ioerr, s)) ∨
        (s.inEnd = .stall ∧ s.inRead = (.waiting, s)))) := by
  by_cases h : s.inPos < s.input.length
  · exact .inl ⟨_, inByteAt_of_lt s _ h, by simp [State.inRead, State.inAnswer, h]⟩
  · have h := Nat.not_lt.mp h
    rw [inByteAt_of_ge s _ h]
    have hu : s.unread = [] := by simpa [State.unread] using h
    cases he : s.inEnd <;> simp [State.inRead, inAnswer_of_nil s hu, InEnd.answer, he, hu]

/-- R52: past the listed bytes, only the terminal or the infinite sequence is left. -/
theorem unread_end (s : State) : s.input.length ≤ s.inPos + s.unread.length := by
  simp [State.unread]
  omega

/-- R151: the `InRead()` that follows a readLine without a terminator. -/
theorem inRead_lineEnd (s : State) (h : newline ∉ s.unread) :
    (∃ b, s.inByteAt (s.inPos + s.unread.length) = some b ∧
      (s.readLine).2.inRead =
        (.byte b, s.setInput (s.inPos + s.unread.length + 1) (s.lineBuf ++ s.unread))) ∨
    (s.inByteAt (s.inPos + s.unread.length) = none ∧
      ((s.inEnd = .eof ∧ (s.readLine).2.inRead = (.eof, (s.readLine).2)) ∨
        (s.inEnd = .ioerr ∧ (s.readLine).2.inRead = (.ioerr, (s.readLine).2)) ∨
        (s.inEnd = .stall ∧ (s.readLine).2.inRead = (.waiting, (s.readLine).2)))) := by
  rw [readLine_of_not_mem s h]
  rcases inRead_cases (s.setInput (s.inPos + s.unread.length) (s.lineBuf ++ s.unread)) with ⟨b, hb, e⟩ | ⟨hb, -, he⟩
  · exact .inl ⟨b, hb, e⟩
  · exact .inr ⟨hb, he⟩

/-! ### The output port (R53) -/

/-- R53: an environment that only accepts pieces gets no further than their sum. -/
theorem offer_acceptAll (fin : OutEnd) (ks : List Nat) (rest : List Byte) (more : List OutReply) :
    offer fin rest (acceptAll ks ++ more) =
      ⟨rest.take ks.sum ++ (offer fin (rest.drop ks.sum) more).accepted, (offer fin (rest.drop ks.sum) more).left,
        (offer fin (rest.drop ks.sum) more).fin⟩ := by
  induction ks generalizing rest with
  | nil => simp [acceptAll]
  | cons k ks ih =>
    have ih' := ih (rest.drop k)
    simp only [acceptAll] at ih'
    simp [acceptAll, offer, ih', List.take_add, List.drop_drop]

/-- The same where no reply follows the pieces. -/
theorem offer_acceptAll_only (fin : OutEnd) (ks : List Nat) (rest : List Byte) :
    offer fin rest (acceptAll ks) =
      ⟨rest.take ks.sum ++ (offer fin (rest.drop ks.sum) []).accepted, (offer fin (rest.drop ks.sum) []).left,
        (offer fin (rest.drop ks.sum) []).fin⟩ := by
  simpa using offer_acceptAll fin ks rest []

theorem offer_ok (s : State) (rest : List Byte) (left : List OutReply) (h : PortOk s left) :
    offer s.outEnd rest s.outReplies = ⟨rest, left, .ok⟩ := by
  obtain ⟨ks, h | ⟨h, rfl, he⟩⟩ := h
  · simp [h, offer_acceptAll, offer]
  · simp [h, he, offer_acceptAll_only, offer]

theorem offer_fails (s : State) (rest : List Byte) (k : Nat) (left : List OutReply) (h : PortFails s k left) :
    offer s.outEnd rest s.outReplies = ⟨rest.take k, left, .ioerr⟩ := by
  obtain ⟨ks, rfl, h | ⟨h, rfl, he⟩⟩ := h
  · simp [h, offer_acceptAll, offer]
  · simp [h, he, offer_acceptAll_only, offer]

theorem offer_holds (s : State) (rest : List Byte) (k : Nat) (h : PortHolds s k) :
    offer s.outEnd rest s.outReplies = ⟨rest.take k, [], .waiting⟩ := by
  obtain ⟨ks, rfl, h, he⟩ := h
  simp [h, he, offer_acceptAll_only, offer]

/-- R53: what the environment accepts of a write is its first bytes. -/
theorem offer_accepted_prefix (fin : OutEnd) (rest : List Byte) (replies : List OutReply) :
    (offer fin rest replies).accepted <+: rest := by
  induction replies generalizing rest with
  | nil => cases fin <;> simp [offer]
  | cons r left ih =>
    cases r with
    | ok => simp [offer]
    | ioerr => simp [offer]
    | accept k =>
      obtain ⟨u, hu⟩ := ih (rest.drop k)
      exact ⟨u, by simp [offer, hu]⟩

/-- R53, R107: how an instruction ends whose last action is a write, by how the write ends. -/
theorem concludeWrite_of_ok (bytes : List Byte) (s : State)
    (h : (offer s.outEnd (bytes.drop s.outTaken) s.outReplies).fin = .ok) :
    concludeWrite bytes s =
      .next ((s.setOutput (s.output ++ (offer s.outEnd (bytes.drop s.outTaken) s.outReplies).accepted)
        (offer s.outEnd (bytes.drop s.outTaken) s.outReplies).left 0).setPc (s.pc + 1)) := by
  simp [concludeWrite, State.outWrite, h]

theorem concludeWrite_of_ioerr (bytes : List Byte) (s : State)
    (h : (offer s.outEnd (bytes.drop s.outTaken) s.outReplies).fin = .ioerr) :
    concludeWrite bytes s =
      .next ((s.setOutput (s.output ++ (offer s.outEnd (bytes.drop s.outTaken) s.outReplies).accepted)
        (offer s.outEnd (bytes.drop s.outTaken) s.outReplies).left 0).enterError .io .none s.pc) := by
  simp [concludeWrite, State.outWrite, h]

theorem concludeWrite_of_waiting (bytes : List Byte) (s : State)
    (h : (offer s.outEnd (bytes.drop s.outTaken) s.outReplies).fin = .waiting) :
    concludeWrite bytes s =
      .next (s.setOutput (s.output ++ (offer s.outEnd (bytes.drop s.outTaken) s.outReplies).accepted)
        (offer s.outEnd (bytes.drop s.outTaken) s.outReplies).left
        (s.outTaken + (offer s.outEnd (bytes.drop s.outTaken) s.outReplies).accepted.length)) := by
  simp [concludeWrite, State.outWrite, h]

end Sys2Proof.Machine
end

