-- ==== Sys2Proof/Laws/Exec.lean ====
section
/-! SUPPORT. What an instruction can do, said once: `exec_cases` is the inversion of `exec` on which facts about every
instruction rest. -/

namespace Sys2Proof.Machine

/-! ### Two removals (R130) -/

/-- R9: removing one index, as a filter by index. -/
theorem eraseIdx_eq_filter (l : List Word) (n j : Nat) :
    l.eraseIdx j = ((l.zipIdx n).filter (fun x => decide (x.2 ≠ n + j))).map Prod.fst := by
  induction l generalizing n j with
  | nil => rfl
  | cons a l ih =>
    cases j with
    | zero =>
      simp only [List.eraseIdx_cons_zero, List.zipIdx_cons, Nat.add_zero, ne_eq, not_true_eq_false, decide_false,
        List.filter_cons, Bool.false_eq_true, if_false]
      conv_lhs => rw [← List.zipIdx_map_fst (n + 1) l]
      congr 1
      symm
      rw [List.filter_eq_self]
      intro x hx
      have := List.le_snd_of_mem_zipIdx hx
      simp
      omega
    | succ j =>
      have := ih (n + 1) j
      simp only [List.eraseIdx_cons_succ, List.zipIdx_cons, this, List.filter_cons]
      rw [if_pos (by simp), show n + 1 + j = n + (j + 1) by omega, List.map_cons]

/-- R130: removing the lower index and then the higher one place down is dropping the pair. -/
theorem eraseIdx_eraseIdx_eq_dropPair (l : List Word) (i j : Nat) (h : i < j) :
    (l.eraseIdx i).eraseIdx (j - 1) = dropPair l i j := by
  have key : ∀ (l : List Word) (n i j : Nat), i < j → (l.eraseIdx i).eraseIdx (j - 1) =
      ((l.zipIdx n).filter (fun x => decide (x.2 ≠ n + i ∧ x.2 ≠ n + j))).map Prod.fst := by
    intro l
    induction l with
    | nil => intros; rfl
    | cons a l ih =>
      intro n i j h
      obtain ⟨j, rfl⟩ : ∃ k, j = k + 1 := ⟨j - 1, by omega⟩
      cases i with
      | zero =>
        simp only [List.eraseIdx_cons_zero, Nat.add_sub_cancel, List.zipIdx_cons, List.filter_cons]
        rw [if_neg (by simp), eraseIdx_eq_filter l (n + 1) j]
        congr 1
        apply List.filter_congr
        intro x hx
        have := List.le_snd_of_mem_zipIdx hx
        have h0 : x.2 ≠ n := by omega
        have h1 : x.2 = n + 1 + j ↔ x.2 = n + (j + 1) := by omega
        simp [h0, h1]
      | succ i =>
        obtain ⟨k, rfl⟩ : ∃ k, j = k + 1 := ⟨j - 1, by omega⟩
        have := ih (n + 1) i (k + 1) (by omega)
        simp only [Nat.add_sub_cancel] at this
        simp only [List.eraseIdx_cons_succ, Nat.add_sub_cancel, List.zipIdx_cons, List.filter_cons, this]
        rw [if_pos (by simp), List.map_cons, show n + 1 + i = n + (i + 1) by omega,
          show n + 1 + (k + 1) = n + (k + 1 + 1) by omega]
  simpa [dropPair] using key l 0 i j h

theorem dropPair_comm (l : List Word) (i j : Nat) : dropPair l i j = dropPair l j i := by
  unfold dropPair
  congr 2
  funext x
  simp [and_comm]

theorem dropPair_length (l : List Word) (i j : Nat) (h : i ≠ j) (hi : i < l.length) (hj : j < l.length) :
    (dropPair l i j).length + 2 = l.length := by
  have key : ∀ i j, i < j → j < l.length → (dropPair l i j).length + 2 = l.length := by
    intro i j h hj
    rw [← eraseIdx_eraseIdx_eq_dropPair l i j h, List.length_eraseIdx_of_lt, List.length_eraseIdx_of_lt] <;>
      (try rw [List.length_eraseIdx_of_lt]) <;> omega
  rcases Nat.lt_or_gt_of_ne h with h | h
  · exact key i j h hj
  · rw [dropPair_comm]
    exact key j i h hi

/-- R130: what Add leaves of the stack. -/
theorem replacePair_eq (s : State) (i j : Nat) (r : Word) (h : i ≠ j) :
    s.replacePair i j r = s.setStack (dropPair s.stack i j ++ [r]) := by
  unfold State.replacePair
  rcases Nat.lt_or_gt_of_ne h with h | h
  · simp [Nat.min_eq_left h.le, Nat.max_eq_right h.le, eraseIdx_eraseIdx_eq_dropPair s.stack i j h]
    rfl
  · simp [Nat.min_eq_right h.le, Nat.max_eq_left h.le, eraseIdx_eraseIdx_eq_dropPair s.stack j i h,
      dropPair_comm _ j i]
    rfl

/-! ### Port operations, inverted -/

theorem concludePush_next {v : Word} {s t : State} (h : concludePush v s = .next t) :
    (s.full ∧ t = s.enterError .stackOverflow .none s.pc) ∨
    (¬ s.full ∧ t = (s.setStack (s.stack ++ [v])).setPc (s.pc + 1)) := by
  rcases concludePush_cases s v with ⟨a, b⟩ | ⟨a, b⟩ <;> rw [b] at h <;> cases h
  · exact .inl ⟨a, rfl⟩
  · exact .inr ⟨a, rfl⟩

/-- R53: the environment's replies, from the first that is an answer. -/
theorem replies_cases (rs : List OutReply) :
    (∃ ks, rs = acceptAll ks) ∨ (∃ ks l, rs = acceptAll ks ++ .ok :: l) ∨ (∃ ks l, rs = acceptAll ks ++ .ioerr :: l) := by
  induction rs with
  | nil => exact .inl ⟨[], rfl⟩
  | cons r rs ih =>
    cases r with
    | ok => exact .inr (.inl ⟨[], rs, rfl⟩)
    | ioerr => exact .inr (.inr ⟨[], rs, rfl⟩)
    | accept k =>
      rcases ih with ⟨ks, h⟩ | ⟨ks, l, h⟩ | ⟨ks, l, h⟩
      · exact .inl ⟨k :: ks, by simp [h, acceptAll]⟩
      · exact .inr (.inl ⟨k :: ks, l, by simp [h, acceptAll]⟩)
      · exact .inr (.inr ⟨k :: ks, l, by simp [h, acceptAll]⟩)

/-- R53, R107: the three ends of a write, by what the environment does. -/
theorem concludeWrite_next {bytes : List Byte} {s t : State} (h : concludeWrite bytes s = .next t) :
    (∃ l, PortOk s l ∧ t = (s.setOutput (s.output ++ bytes.drop s.outTaken) l 0).setPc (s.pc + 1)) ∨
    (∃ k l, PortFails s k l ∧
      t = (s.setOutput (s.output ++ (bytes.drop s.outTaken).take k) l 0).enterError .io .none s.pc) ∨
    (∃ k, PortHolds s k ∧ t = s.setOutput (s.output ++ (bytes.drop s.outTaken).take k) []
      (s.outTaken + ((bytes.drop s.outTaken).take k).length)) := by
  have ok : ∀ l, PortOk s l → t = (s.setOutput (s.output ++ bytes.drop s.outTaken) l 0).setPc (s.pc + 1) := by
    intro l hp
    have e := offer_ok s (bytes.drop s.outTaken) l hp
    rw [concludeWrite_of_ok _ _ (by rw [e]), e] at h
    cases h
    rfl
  have fails : ∀ k l, PortFails s k l →
      t = (s.setOutput (s.output ++ (bytes.drop s.outTaken).take k) l 0).enterError .io .none s.pc := by
    intro k l hp
    have e := offer_fails s (bytes.drop s.outTaken) k l hp
    rw [concludeWrite_of_ioerr _ _ (by rw [e]), e] at h
    cases h
    rfl
  have holds : ∀ k, PortHolds s k → t = s.setOutput (s.output ++ (bytes.drop s.outTaken).take k) []
      (s.outTaken + ((bytes.drop s.outTaken).take k).length) := by
    intro k hp
    have e := offer_holds s (bytes.drop s.outTaken) k hp
    rw [concludeWrite_of_waiting _ _ (by rw [e]), e] at h
    cases h
    rfl
  rcases replies_cases s.outReplies with ⟨ks, hr⟩ | ⟨ks, l, hr⟩ | ⟨ks, l, hr⟩
  · cases he : s.outEnd with
    | ok => exact .inl ⟨[], ⟨ks, .inr ⟨hr, rfl, he⟩⟩, ok [] ⟨ks, .inr ⟨hr, rfl, he⟩⟩⟩
    | ioerr => exact .inr (.inl ⟨_, [], ⟨ks, rfl, .inr ⟨hr, rfl, he⟩⟩, fails _ [] ⟨ks, rfl, .inr ⟨hr, rfl, he⟩⟩⟩)
    | stall => exact .inr (.inr ⟨_, ⟨ks, rfl, hr, he⟩, holds _ ⟨ks, rfl, hr, he⟩⟩)
  · exact .inl ⟨l, ⟨ks, .inl hr⟩, ok l ⟨ks, .inl hr⟩⟩
  · exact .inr (.inl ⟨_, l, ⟨ks, rfl, .inl hr⟩, fails _ l ⟨ks, rfl, .inl hr⟩⟩)

/-! ### Offsets, inverted -/

theorem operand_eq_none (s : State) (k : Word) : s.operand k = none ↔ s.stack.length ≤ k.toNat := by
  rw [operand_eq]
  simp [fromTop_eq_none]

theorem operand_eq_some {s : State} {k : Word} {i : Nat} {v : Word} (h : s.operand k = some (i, v)) :
    s.fromTop k.toNat = some v ∧ i = s.indexOf k ∧ k.toNat < s.stack.length ∧ i < s.stack.length := by
  rw [operand_eq] at h
  cases hk : s.fromTop k.toNat with
  | none => simp [hk] at h
  | some w =>
    have hl := fromTop_isSome_lt _ _ _ hk
    simp only [hk, Option.map_some, Option.some.injEq, Prod.mk.injEq] at h
    obtain ⟨rfl, rfl⟩ := h
    exact ⟨rfl, rfl, hl, by unfold State.indexOf; omega⟩

/-! ### What an instruction can do -/

/-- R105, R107: every way in which an instruction may end, with what led to it. -/
inductive ExecCase (i : Instr) (s : State) : State → Prop
  /-- an error other than that of a write; input bytes may have been consumed -/
  | raise (p : Nat) (l : List Byte) (e : Err) (he : e ∈ i.mayRaise) (hio : e = .io → i.readsInput = true)
      (hb : e = .bounds ↔ ∃ k ∈ i.offsets, s.stack.length ≤ k.toNat) (ho : e = .stackOverflow → s.full) :
      ExecCase i s ((s.setInput p l).enterError e .none s.pc)
  /-- In completes: up to a terminator, or at the end of the input -/
  | line (v : Word) (p : Nat) (hi : i = .inLine) (hf : ¬ s.full)
      (hp : (∃ line, newline ∉ line ∧ s.unread = line ++ newline :: s.input.drop p ∧ p = s.inPos + line.length + 1) ∨
        (newline ∉ s.unread ∧ p = s.inPos + s.unread.length ∧ s.inEnd = .eof) ∨
        (newline ∉ s.unread ∧ p = s.inPos + s.unread.length + 1 ∧
          s.inByteAt (s.inPos + s.unread.length) = some newline)) :
      ExecCase i s (((s.setInput p []).setStack (s.stack ++ [v])).setPc (s.pc + 1))
  /-- In waits -/
  | lineWait (hi : i = .inLine) (hw : lineWaits s) :
      ExecCase i s (s.setInput (s.inPos + s.unread.length) (s.lineBuf ++ s.unread))
  /-- In takes one byte of an infinite sequence and goes on -/
  | lineMore (b : Byte) (hi : i = .inLine) (hw : lineGoesOn s b) :
      ExecCase i s (s.setInput (s.inPos + s.unread.length + 1) (s.lineBuf ++ s.unread ++ [b]))
  /-- a read meets the end of the input -/
  | eof (hi : i.readsInput = true) (hl : i = .inLine → s.lineBuf = []) : ExecCase i s (s.haltClean .inputEof)
  /-- InByte completes -/
  | byte (b : Byte) (hi : i = .inByte) (hf : ¬ s.full) (hb : s.inByteAt s.inPos = some b) :
      ExecCase i s (((s.setInput (s.inPos + 1) s.lineBuf).setStack (s.stack ++ [zeroExtend b])).setPc (s.pc + 1))
  /-- InByte waits -/
  | byteWait (hi : i = .inByte) (hw : byteWaits s) : ExecCase i s s
  /-- a write completes -/
  | written (bytes : List Byte) (l : List OutReply) (hp : pendingWrite i s = some bytes) (hk : PortOk s l) :
      ExecCase i s ((s.setOutput (s.output ++ bytes.drop s.outTaken) l 0).setPc (s.pc + 1))
  /-- a write fails -/
  | writeError (bytes : List Byte) (k : Nat) (l : List OutReply) (hp : pendingWrite i s = some bytes)
      (hk : PortFails s k l) :
      ExecCase i s ((s.setOutput (s.output ++ (bytes.drop s.outTaken).take k) l 0).enterError .io .none s.pc)
  /-- a write waits -/
  | writeWait (bytes : List Byte) (k : Nat) (hp : pendingWrite i s = some bytes) (hk : PortHolds s k) :
      ExecCase i s (s.setOutput (s.output ++ (bytes.drop s.outTaken).take k) []
        (s.outTaken + ((bytes.drop s.outTaken).take k).length))
  /-- an instruction that uses no port falls through -/
  | fallthrough (l : List Word) (hl : StackEffect i s.stack l) (hr : i.readsInput = false) (hw : i.writesOutput = false)
      (hc : l.length ≤ s.stack.length ∨ (l.length = s.stack.length + 1 ∧ ¬ s.full)) :
      ExecCase i s ((s.setStack l).setPc (s.pc + 1))
  /-- a branch is taken -/
  | jump (t : Word) (ht : i.target = some t) : ExecCase i s (s.setPc t)

/-- An error before anything was done. -/
theorem ExecCase.of_raise {i : Instr} {s : State} (e : Err) (he : e ∈ i.mayRaise) (hio : e = .io → i.readsInput = true)
    (hb : e = .bounds ↔ ∃ k ∈ i.offsets, s.stack.length ≤ k.toNat) (ho : e = .stackOverflow → s.full) :
    ExecCase i s (s.enterError e .none s.pc) :=
  ExecCase.raise s.inPos s.lineBuf e he hio hb ho

/-- BoundsError, for an instruction whose offset `k` names no element. -/
theorem ExecCase.of_bounds {i : Instr} {s : State} (k : Word) (hk : k ∈ i.offsets) (hl : s.stack.length ≤ k.toNat)
    (he : Err.bounds ∈ i.mayRaise) : ExecCase i s (s.enterError .bounds .none s.pc) :=
  ExecCase.of_raise .bounds he (by simp) (by simpa using ⟨k, hk, hl⟩) (by simp)

/-- An output instruction past its checks. -/
theorem ExecCase.of_write {i : Instr} {s t : State} {bytes : List Byte} (hp : pendingWrite i s = some bytes)
    (h : concludeWrite bytes s = .next t) : ExecCase i s t := by
  rcases concludeWrite_next h with ⟨l, a, rfl⟩ | ⟨k, l, a, rfl⟩ | ⟨k, a, rfl⟩
  · exact .written _ _ hp a
  · exact .writeError _ _ _ hp a
  · exact .writeWait _ _ hp a

theorem execCopy_cases (p : Word) (s t : State) (h : execCopy p s = .next t) : ExecCase (.copy p) s t := by
  unfold execCopy at h
  cases ho : s.operand p with
  | none =>
    simp only [ho, conclude_raise, Host.Outcome.next.injEq] at h
    subst h
    exact .of_bounds p (by simp [Instr.offsets]) ((operand_eq_none s p).1 ho) (by simp [Instr.mayRaise])
  | some q =>
    obtain ⟨j, v⟩ := q
    obtain ⟨h1, h2, h3, -⟩ := operand_eq_some ho
    simp only [ho] at h
    rcases concludePush_next h with ⟨a, rfl⟩ | ⟨a, rfl⟩
    · exact .of_raise _ (by simp [Instr.mayRaise]) (by simp) (by simp [Instr.offsets]; omega) (fun _ => a)
    · exact .fallthrough _ ⟨v, h1, rfl⟩ rfl rfl (.inr ⟨by simp, a⟩)

theorem execAdd_cases (a b : Word) (s t : State) (h : execAdd a b s = .next t) : ExecCase (.add a b) s t := by
  unfold execAdd at h
  cases ho : s.operand a with
  | none =>
    simp only [ho, conclude_raise, Host.Outcome.next.injEq] at h
    subst h
    exact .of_bounds a (by simp [Instr.offsets]) ((operand_eq_none s a).1 ho) (by simp [Instr.mayRaise])
  | some q =>
    obtain ⟨j, v⟩ := q
    obtain ⟨h1, h2, h3, l1⟩ := operand_eq_some ho
    cases ho' : s.operand b with
    | none =>
      simp only [ho, ho', conclude_raise, Host.Outcome.next.injEq] at h
      subst h
      exact .of_bounds b (by simp [Instr.offsets]) ((operand_eq_none s b).1 ho') (by simp [Instr.mayRaise])
    | some q' =>
      obtain ⟨j', v'⟩ := q'
      obtain ⟨h1', h2', h3', l2⟩ := operand_eq_some ho'
      simp only [ho, ho'] at h
      split at h
      · simp only [conclude_raise, Host.Outcome.next.injEq] at h
        subst h
        exact .of_raise _ (by simp [Instr.mayRaise]) (by simp) (by simp [Instr.offsets]; omega) (by simp)
      · rename_i hne
        split at h
        · simp only [conclude_raise, Host.Outcome.next.injEq] at h
          subst h
          exact .of_raise _ (by simp [Instr.mayRaise]) (by simp) (by simp [Instr.offsets]; omega) (by simp)
        · rename_i r hr
          have hl := dropPair_length s.stack j j' hne l1 l2
          simp only [replacePair_eq s j j' r hne, conclude_fallthrough, State.setStack_pc, Host.Outcome.next.injEq] at h
          subst h
          refine .fallthrough (dropPair s.stack j j' ++ [r]) ⟨r, ?_, ?_⟩ rfl rfl (.inl ?_)
          · rw [h2, h2']; rfl
          · simp; omega
          · simp; omega

theorem execDec_cases (p : Word) (s t : State) (h : execDec p s = .next t) : ExecCase (.dec p) s t := by
  unfold execDec at h
  cases ho : s.operand p with
  | none =>
    simp only [ho, conclude_raise, Host.Outcome.next.injEq] at h
    subst h
    exact .of_bounds p (by simp [Instr.offsets]) ((operand_eq_none s p).1 ho) (by simp [Instr.mayRaise])
  | some q =>
    obtain ⟨j, v⟩ := q
    obtain ⟨h1, h2, h3, -⟩ := operand_eq_some ho
    simp only [ho] at h
    split at h
    · simp only [conclude_raise, Host.Outcome.next.injEq] at h
      subst h
      exact .of_raise _ (by simp [Instr.mayRaise]) (by simp) (by simp [Instr.offsets]; omega) (by simp)
    · rename_i r hr
      simp only [conclude_fallthrough, Host.Outcome.next.injEq] at h
      subst h
      exact .fallthrough (s.stack.set j r) ⟨r, by rw [h2]; rfl⟩ rfl rfl (.inl (by simp))

theorem execInc_cases (p : Word) (s t : State) (h : execInc p s = .next t) : ExecCase (.inc p) s t := by
  unfold execInc at h
  cases ho : s.operand p with
  | none =>
    simp only [ho, conclude_raise, Host.Outcome.next.injEq] at h
    subst h
    exact .of_bounds p (by simp [Instr.offsets]) ((operand_eq_none s p).1 ho) (by simp [Instr.mayRaise])
  | some q =>
    obtain ⟨j, v⟩ := q
    obtain ⟨h1, h2, h3, -⟩ := operand_eq_some ho
    simp only [ho] at h
    split at h
    · simp only [conclude_raise, Host.Outcome.next.injEq] at h
      subst h
      exact .of_raise _ (by simp [Instr.mayRaise]) (by simp) (by simp [Instr.offsets]; omega) (by simp)
    · rename_i r hr
      simp only [conclude_fallthrough, Host.Outcome.next.injEq] at h
      subst h
      exact .fallthrough (s.stack.set j r) ⟨r, by rw [h2]; rfl⟩ rfl rfl (.inl (by simp))

/-- Gt and Eq: an instruction with two offsets and a target that compares and branches. -/
theorem branchOn_cases (i : Instr) (test : Word → Word → Bool) (a b u : Word) (s t : State)
    (ho : i.offsets = [a, b]) (hm : Err.bounds ∈ i.mayRaise) (ht : i.target = some u)
    (hs : StackEffect i s.stack s.stack) (hr : i.readsInput = false) (hw : i.writesOutput = false)
    (h : branchOn test a b u s = .next t) : ExecCase i s t := by
  unfold branchOn at h
  cases ha : s.operand a with
  | none =>
    simp only [ha, conclude_raise, Host.Outcome.next.injEq] at h
    subst h
    exact .of_bounds a (by simp [ho]) ((operand_eq_none s a).1 ha) hm
  | some q =>
    cases hb : s.operand b with
    | none =>
      simp only [ha, hb, conclude_raise, Host.Outcome.next.injEq] at h
      subst h
      exact .of_bounds b (by simp [ho]) ((operand_eq_none s b).1 hb) hm
    | some q' =>
      simp only [ha, hb] at h
      split at h
      · simp only [conclude_jump, Host.Outcome.next.injEq] at h
        subst h
        exact .jump _ ht
      · simp only [conclude_fallthrough, Host.Outcome.next.injEq] at h
        subst h
        exact .fallthrough s.stack hs hr hw (.inl (Nat.le_refl _))

theorem execOut_cases (p : Word) (s t : State) (h : execOut p s = .next t) : ExecCase (.out p) s t := by
  unfold execOut at h
  cases ho : s.operand p with
  | none =>
    simp only [ho, conclude_raise, Host.Outcome.next.injEq] at h
    subst h
    exact .of_bounds p (by simp [Instr.offsets]) ((operand_eq_none s p).1 ho) (by simp [Instr.mayRaise])
  | some q =>
    obtain ⟨j, v⟩ := q
    obtain ⟨h1, -⟩ := operand_eq_some ho
    simp only [ho] at h
    exact .of_write (by simp [pendingWrite, h1]) h

theorem execOutByte_cases (p : Word) (s t : State) (h : execOutByte p s = .next t) : ExecCase (.outByte p) s t := by
  unfold execOutByte at h
  cases ho : s.operand p with
  | none =>
    simp only [ho, conclude_raise, Host.Outcome.next.injEq] at h
    subst h
    exact .of_bounds p (by simp [Instr.offsets]) ((operand_eq_none s p).1 ho) (by simp [Instr.mayRaise])
  | some q =>
    obtain ⟨j, v⟩ := q
    obtain ⟨h1, h2, h3, -⟩ := operand_eq_some ho
    simp only [ho] at h
    cases hb : byteChecked v with
    | none =>
      simp only [hb, conclude_raise, Host.Outcome.next.injEq] at h
      subst h
      exact .of_raise _ (by simp [Instr.mayRaise]) (by simp) (by simp [Instr.offsets]; omega) (by simp)
    | some b =>
      simp only [hb] at h
      refine .of_write ?_ h
      unfold byteChecked at hb
      split at hb
      · rename_i hle
        cases hb
        simp [pendingWrite, h1, hle]
      · cases hb

theorem execInByte_cases (s t : State) (h : execInByte s = .next t) : ExecCase .inByte s t := by
  unfold execInByte at h
  rcases inRead_cases s with ⟨b, hb, e⟩ | ⟨-, hu, ⟨he, e⟩ | ⟨he, e⟩ | ⟨he, e⟩⟩ <;> rw [e] at h
  · rcases concludePush_next h with ⟨a, rfl⟩ | ⟨a, rfl⟩
    · exact .raise _ _ .stackOverflow (by simp [Instr.mayRaise]) (by simp) (by simp [Instr.offsets]) (fun _ => a)
    · exact .byte b rfl a hb
  all_goals
    simp only [conclude_raise, conclude_haltClean, conclude_wait, Host.Outcome.next.injEq] at h
    subst h
  · exact .eof rfl (by simp)
  · exact .of_raise _ (by simp [Instr.mayRaise]) (by simp [Instr.readsInput]) (by simp [Instr.offsets]) (by simp)
  · exact .byteWait rfl ⟨hu, he⟩

/-- In, once its line is complete. -/
theorem concludeLine_cases (s t : State) (line : List Byte) (p : Nat)
    (hp : (∃ line, newline ∉ line ∧ s.unread = line ++ newline :: s.input.drop p ∧ p = s.inPos + line.length + 1) ∨
      (newline ∉ s.unread ∧ p = s.inPos + s.unread.length ∧ s.inEnd = .eof) ∨
      (newline ∉ s.unread ∧ p = s.inPos + s.unread.length + 1 ∧ s.inByteAt (s.inPos + s.unread.length) = some newline))
    (h : concludeLine (s.setInput p line) = .next t) : ExecCase .inLine s t := by
  unfold concludeLine at h
  split at h
  · simp only [conclude_raise, Host.Outcome.next.injEq] at h
    subst h
    exact .raise _ _ .parse (by simp [Instr.mayRaise]) (by simp) (by simp [Instr.offsets]) (by simp)
  · rcases concludePush_next h with ⟨a, rfl⟩ | ⟨a, rfl⟩
    · exact .raise _ _ .stackOverflow (by simp [Instr.mayRaise]) (by simp) (by simp [Instr.offsets]) (fun _ => a)
    · exact .line _ p rfl a hp

theorem execInLine_cases (s t : State) (h : execInLine s = .next t) : ExecCase .inLine s t := by
  unfold execInLine at h
  by_cases hm : newline ∈ s.unread
  · obtain ⟨line, rest, h1, h2⟩ := exists_line_of_mem _ hm
    rw [readLine_of_line s line rest h1 h2] at h
    refine concludeLine_cases s t _ _ (.inl ⟨line, h1, ?_, rfl⟩) h
    have e : s.input.drop (s.inPos + line.length + 1) = rest := by
      have e1 : s.input.drop (s.inPos + line.length + 1) = s.unread.drop (line.length + 1) := by
        rw [State.unread, List.drop_drop, Nat.add_assoc]
      rw [e1, h2]
      simp
    rw [e, h2]
  · have hr := inRead_lineEnd s hm
    rw [readLine_of_not_mem s hm] at h hr
    rcases hr with ⟨b, hb, e⟩ | ⟨-, ⟨he, e⟩ | ⟨he, e⟩ | ⟨he, e⟩⟩ <;> simp only [e] at h
    · split at h
      · rename_i hn
        subst hn
        exact concludeLine_cases s t _ _ (.inr (.inr ⟨hm, rfl, hb⟩)) h
      · rename_i hn
        cases h
        exact .lineMore b rfl ⟨hm, hb, hn⟩
    · split at h
      · rename_i hl
        simp only [State.setInput_lineBuf, List.append_eq_nil_iff] at hl
        simp only [conclude_haltClean, Host.Outcome.next.injEq] at h
        subst h
        have e : s.setInput (s.inPos + s.unread.length) (s.lineBuf ++ s.unread) = s := by
          rw [hl.2, List.append_nil]
          rfl
        rw [e]
        exact .eof rfl (fun _ => hl.1)
      · simp only [concludePartialLine] at h
        split at h
        · exact concludeLine_cases s t _ _ (.inr (.inl ⟨hm, rfl, he⟩)) h
        · simp only [conclude_raise, Host.Outcome.next.injEq] at h
          subst h
          exact .raise _ _ .parse (by simp [Instr.mayRaise]) (by simp) (by simp [Instr.offsets]) (by simp)
    · simp only [conclude_raise, Host.Outcome.next.injEq] at h
      subst h
      exact .raise _ _ .io (by simp [Instr.mayRaise]) (by simp [Instr.readsInput]) (by simp [Instr.offsets]) (by simp)
    · simp only [conclude_wait, Host.Outcome.next.injEq] at h
      subst h
      exact .lineWait rfl ⟨hm, he⟩

/-- What any instruction can do: every next state of `exec` is one of the cases above. -/
theorem exec_cases (i : Instr) (s t : State) (h : exec i s = .next t) : ExecCase i s t := by
  cases i with
  | push v =>
    rcases concludePush_next h with ⟨a, rfl⟩ | ⟨a, rfl⟩
    · exact .of_raise _ (by simp [Instr.mayRaise]) (by simp) (by simp [Instr.offsets]) (fun _ => a)
    · exact .fallthrough _ rfl rfl rfl (.inr ⟨by simp, a⟩)
  | out p => exact execOut_cases p s t h
  | inLine => exact execInLine_cases s t h
  | outStr str => exact .of_write rfl h
  | copy p => exact execCopy_cases p s t h
  | add a b => exact execAdd_cases a b s t h
  | gt a b u => exact branchOn_cases _ _ a b u s t rfl (by simp [Instr.mayRaise]) rfl rfl rfl rfl h
  | eq a b u => exact branchOn_cases _ _ a b u s t rfl (by simp [Instr.mayRaise]) rfl rfl rfl rfl h
  | jmp u => cases h; exact .jump u rfl
  | dec p => exact execDec_cases p s t h
  | inc p => exact execInc_cases p s t h
  | inByte => exact execInByte_cases s t h
  | outByte p => exact execOutByte_cases p s t h

end Sys2Proof.Machine
end

