-- ==== Sys2Proof/Laws/PerInstr.lean ====
section
/-! SUPPORT. The family of statements made for every instruction. -/

namespace Sys2Proof.Laws

/-- R72, R81: the decoder reads the tag of a record as the instruction's own opcode, and then its payload. -/
def TagRead.Statement (i : Instr) : Prop :=
  ∀ (tm : TagMap) (rest : List Byte), tm.wf = true →
    decodeRecord tm (encode tm i ++ rest) = readPayload i.opcode (i.payload ++ rest)

theorem TagRead.of_opcode (i : Instr) : TagRead.Statement i := by
  intro tm rest h
  simp [encode, decodeRecord, opcodeOf_tag tm h i.opcode]

theorem TagRead.push (v : Word) : TagRead.Statement (.push v) := TagRead.of_opcode _
theorem TagRead.out (p : Word) : TagRead.Statement (.out p) := TagRead.of_opcode _
theorem TagRead.inLine : TagRead.Statement (.inLine) := TagRead.of_opcode _
theorem TagRead.outStr (s : List Byte) : TagRead.Statement (.outStr s) := TagRead.of_opcode _
theorem TagRead.copy (p : Word) : TagRead.Statement (.copy p) := TagRead.of_opcode _
theorem TagRead.add (a b : Word) : TagRead.Statement (.add a b) := TagRead.of_opcode _
theorem TagRead.gt (a b t : Word) : TagRead.Statement (.gt a b t) := TagRead.of_opcode _
theorem TagRead.eq (a b t : Word) : TagRead.Statement (.eq a b t) := TagRead.of_opcode _
theorem TagRead.jmp (t : Word) : TagRead.Statement (.jmp t) := TagRead.of_opcode _
theorem TagRead.dec (p : Word) : TagRead.Statement (.dec p) := TagRead.of_opcode _
theorem TagRead.inc (p : Word) : TagRead.Statement (.inc p) := TagRead.of_opcode _
theorem TagRead.inByte : TagRead.Statement (.inByte) := TagRead.of_opcode _
theorem TagRead.outByte (p : Word) : TagRead.Statement (.outByte p) := TagRead.of_opcode _

end Sys2Proof.Laws
end

