-- ==== Sys2Proof/Tests/Slice0.lean ====
section
/-! SUPPORT. The model's own tests: the smoke test of WellFormed, one written-out word for every constructor, at most two
steps an instruction, loader vectors, and a state that meets the hypotheses of each obligation. The expected results are
those of spec/95_test_vectors.md (the row is named) or of the cited rule. -/

namespace Sys2Proof.Tests

open Sys2Proof Sys2Proof.Machine

/-! ### Small states -/

/-- A running state whose instruction at pc 0 is `i`, with two more after it. -/
def at0 (i : Instr) (stack : List Word) : State :=
  { State.reset with prog := [i, .inByte, .inByte], stack := stack, status := Status.running }

/-- The same with input bytes and their end. -/
def reading (i : Instr) (stack : List Word) (input : List Byte) (fin : InEnd) : State :=
  { at0 i stack with input := input, inEnd := fin }

/-- The same with the replies of the output port. -/
def writing (i : Instr) (stack : List Word) (replies : List OutReply) (fin : OutEnd) : State :=
  { at0 i stack with outReplies := replies, outEnd := fin }

/-- The same under a finite stack. -/
def capped (n : Nat) (s : State) : State := { s with cfg := { s.cfg with stackCap := some n } }

/-- The next state of a step, where there is one. -/
def after (s : State) : Option State :=
  match step s with
  | .next t => some t
  | .fault _ => none
  | .refused _ => none

/-- What a completed step is checked on: S, pc, STATUS. -/
def view (s : State) : Option (List Word × Word × BitVec 32) :=
  (after s).map (fun t => (t.stack, t.pc, t.status.word))

/-- What an error is checked on: STATUS, ERR_INFO, output. -/
def errorView (s : State) : Option (BitVec 32 × Word × List Byte) :=
  (after s).map (fun t => (t.status.word, t.errInfo, t.output))

/-- What an output is checked on: S, pc, output. -/
def outputView (s : State) : Option (List Word × Word × List Byte) :=
  (after s).map (fun t => (t.stack, t.pc, t.output))

/-! ### WellFormed: one ill-formed term for each check -/

theorem test_wf_refuses_invalid_utf8 : Instr.wf (.outStr [0xFF]) = false := by decide
theorem test_wf_refuses_long_string (n : Nat) (h : n = 2 ^ 64) :
    Instr.wf (.outStr (List.replicate n 0x41)) = false := by
  simp only [Instr.wf, List.length_replicate, Bool.and_eq_false_imp, decide_eq_true_eq]
  omega
theorem test_wf_accepts_text : Instr.wf (.outStr [0xC3, 0xA9]) = true := by decide
theorem test_params_refuse_equal_tags :
    Params.wf { Params.default with tags := { TagMap.default with out := 0x00 } } = false := by decide
theorem test_params_refuse_large_progCap : Params.wf { Params.default with progCap := 2 ^ 64 } = false := by decide
theorem test_params_accept_default : Params.wf Params.default = true := by decide

/-! ### One word for every constructor (95_test_vectors.md section 2.1) -/

/-- The program that an image decodes to under the defaults. -/
def load (image : List Byte) : LoadResult := decode TagMap.default Params.default.progCap image

theorem test_decode_push : load [0x00, 0x08, 0x07, 0x06, 0x05, 0x04, 0x03, 0x02, 0x01] =
    .loaded [.push 0x0102030405060708] := by decide
theorem test_decode_out : load [0x01, 0, 0, 0, 0, 0, 0, 0, 0] = .loaded [.out 0] := by decide
theorem test_decode_inLine : load [0x02] = .loaded [.inLine] := by decide
theorem test_decode_outStr : load [0x03, 2, 0, 0, 0, 0, 0, 0, 0, 0x68, 0x69] = .loaded [.outStr [0x68, 0x69]] := by decide
theorem test_decode_copy : load [0x04, 1, 0, 0, 0, 0, 0, 0, 0] = .loaded [.copy 1] := by decide
theorem test_decode_add : load [0x05, 1, 0, 0, 0, 0, 0, 0, 0, 0, 0, 0, 0, 0, 0, 0, 0] = .loaded [.add 1 0] := by decide
theorem test_decode_gt : load [0x06, 0, 0, 0, 0, 0, 0, 0, 0, 1, 0, 0, 0, 0, 0, 0, 0, 7, 0, 0, 0, 0, 0, 0, 0] =
    .loaded [.gt 0 1 7] := by decide
theorem test_decode_eq : load [0x07, 2, 0, 0, 0, 0, 0, 0, 0, 3, 0, 0, 0, 0, 0, 0, 0, 9, 0, 0, 0, 0, 0, 0, 0] =
    .loaded [.eq 2 3 9] := by decide
theorem test_decode_jmp : load [0x08, 4, 0, 0, 0, 0, 0, 0, 0] = .loaded [.jmp 4] := by decide
theorem test_decode_dec : load [0x09, 2, 0, 0, 0, 0, 0, 0, 0] = .loaded [.dec 2] := by decide
theorem test_decode_inc : load [0x0A, 0, 0, 0, 0, 0, 0, 0, 0] = .loaded [.inc 0] := by decide
theorem test_decode_inByte : load [0x0B] = .loaded [.inByte] := by decide
theorem test_decode_outByte : load [0x0C, 0, 0, 0, 0, 0, 0, 0, 0] = .loaded [.outByte 0] := by decide

/-! ### The loader (95_test_vectors.md section 2.2) -/

theorem test_load_L1 : load [] = .loaded [] := by decide
theorem test_load_L3 : load [0x08, 2, 0, 0, 0, 0, 0, 0, 0, 0x02] = .loaded [.jmp 2, .inLine] := by decide
theorem test_load_L7 : load [0x02, 0x0D] = .formatError .unknownTag 1 := by decide
theorem test_load_L9 : load [0x00, 5, 0, 0, 0, 0, 0, 0, 0, 0x05, 1] = .formatError .truncated 9 := by decide
theorem test_load_L13 : load [0x03, 0xFF, 0xFF, 0xFF, 0xFF, 0xFF, 0xFF, 0xFF, 0xFF] = .formatError .truncated 0 := by
  decide
theorem test_load_L14 : load [0x03, 1, 0, 0, 0, 0, 0, 0, 0, 0xFF] = .formatError .invalidUtf8 0 := by decide
theorem test_load_L15 : load [0x03, 3, 0, 0, 0, 0, 0, 0, 0, 0xED, 0xA0, 0x80] = .formatError .invalidUtf8 0 := by decide
theorem test_load_L16 : decode TagMap.default 1 [0x02, 0x02] = .formatError .programTooLarge 1 := by decide
/-- L18 as a turn: STATUS 0x113, ERR_INFO 9, no instruction loaded. -/
theorem test_load_turn_L18 :
    (after { State.reset with events := [.load [0x09, 0, 0, 0, 0, 0, 0, 0, 0, 0x0D]] }).map
      (fun t => (t.status.word, t.errInfo, t.prog)) = some (0x113, 9, []) := by decide
/-- L2 as a turn: STATUS 0x001. -/
theorem test_load_turn_L2 :
    (after { State.reset with events := [.load [0x02]] }).map (fun t => (t.status.word, t.prog, t.pc)) =
      some (0x001, [.inLine], 0) := by decide

/-! ### One step of each instruction (95_test_vectors.md section 3) -/

theorem test_push_K2 : view (at0 (.push 0xFFFFFFFFFFFFFFFF) [1]) = some ([1, 0xFFFFFFFFFFFFFFFF], 1, 0x001) := by decide
theorem test_push_K4 : errorView (capped 3 (at0 (.push 1) [7, 7, 7])) = some (0x063, 0, []) := by decide
theorem test_copy_K5 : view (at0 (.copy 1) [4, 7]) = some ([4, 7, 4], 1, 0x001) := by decide
theorem test_copy_K10 : errorView (at0 (.copy 0xFFFFFFFFFFFFFFFF) [4, 7]) = some (0x033, 0, []) := by decide
theorem test_add_A5 : view (at0 (.add 1 2) [10, 20, 30, 40]) = some ([10, 40, 50], 1, 0x001) := by decide
theorem test_add_A11 : errorView (at0 (.add 0 1) [0xFFFFFFFFFFFFFFFF, 1]) = some (0x043, 0, []) := by decide
theorem test_dec_A16 : view (at0 (.dec 2) [5, 0, 1]) = some ([4, 0, 1], 1, 0x001) := by decide
theorem test_dec_A18 : errorView (at0 (.dec 0) [0]) = some (0x043, 0, []) := by decide
theorem test_inc_A21 : view (at0 (.inc 1) [9, 3]) = some ([10, 3], 1, 0x001) := by decide
theorem test_inc_A23 : errorView (at0 (.inc 0) [0xFFFFFFFFFFFFFFFF]) = some (0x043, 0, []) := by decide
theorem test_gt_C1 : view (at0 (.gt 0 1 7) [3, 9]) = some ([3, 9], 7, 0x001) := by decide
theorem test_gt_C4 : view (at0 (.gt 0 1 7) [0, 0xFFFFFFFFFFFFFFFF]) = some ([0, 0xFFFFFFFFFFFFFFFF], 7, 0x001) := by
  decide
theorem test_eq_C9 : view (at0 (.eq 2 3 9) [0, 5, 0, 1]) = some ([0, 5, 0, 1], 1, 0x001) := by decide
theorem test_eq_C14 : view (at0 (.eq 0 1 0) [2, 2]) = some ([2, 2], 0, 0x001) := by decide
theorem test_jmp_C17 : view (at0 (.jmp 0xFFFFFFFFFFFFFFFF) []) = some ([], 0xFFFFFFFFFFFFFFFF, 0x001) := by decide
theorem test_out_O3 : outputView (at0 (.out 0) [0xFFFFFFFFFFFFFFFF]) =
    some ([0xFFFFFFFFFFFFFFFF], 1, [0x31, 0x38, 0x34, 0x34, 0x36, 0x37, 0x34, 0x34, 0x30, 0x37, 0x33, 0x37, 0x30, 0x39,
      0x35, 0x35, 0x31, 0x36, 0x31, 0x35, 0x0A]) := by decide
/-- O9: one byte accepted, then IOERR. -/
theorem test_out_O9 : errorView (writing (.out 0) [8] [.accept 1, .ioerr] .ok) = some (0x053, 0, [0x38]) := by decide
theorem test_in_I15 :
    (after (reading .inLine [] [0x31, 0x32, 0x0A, 0x33, 0x34, 0x0A] .eof)).map (fun t => (t.stack, t.pc, t.inPos)) =
      some ([12], 1, 3) := by decide
theorem test_in_I9 : errorView (reading .inLine [] [0x35, 0x0D, 0x0A] .eof) = some (0x023, 0, []) := by decide
theorem test_outStr_T3 : outputView (at0 (.outStr [0x61, 0x0A, 0x62]) [3]) =
    some ([3], 1, [0x61, 0x0A, 0x62, 0x0A]) := by decide
theorem test_inByte_B5 : view (reading .inByte [] [0xFF] .eof) = some ([255], 1, 0x001) := by decide
theorem test_inByte_B2 : view (reading .inByte [] [] .eof) = some ([], 0, 0x00A) := by decide
theorem test_outByte_Y2 : outputView (at0 (.outByte 0) [255]) = some ([255], 1, [0xFF]) := by decide
theorem test_outByte_Y7 : errorView (at0 (.outByte 1) [300, 7]) = some (0x043, 0, []) := by decide

/-! ### withFetchWord -/

theorem test_fetchWord_runs_push : view (State.reset.withFetchWord 72 0x0500) = some ([5], 1, 0x001) := by decide
theorem test_fetchWord_reports_unknown_tag : errorView (State.reset.withFetchWord 8 0x0D) = some (0x113, 0, []) := by
  decide

/-! ### Witnesses: states and operands that meet the hypotheses of each obligation, clause by clause -/

/-- A string whose only byte no UTF-8 text holds, and a program to stand before it. -/
theorem witness_codec :
    TagMap.default.wf = true ∧ Instr.wf (.outStr [0xC3, 0xA9]) = true ∧ 1 ≤ Params.default.progCap ∧
    (∀ i ∈ [Instr.inLine, .push 5], i.wf = true) ∧ [Instr.inLine, .push 5].length ≤ 2 ∧
    load [0x02] = .loaded [.inLine] := by decide

/-- FieldValueIsLittleEndianSum: eight bytes. -/
theorem witness_FieldValueIsLittleEndianSum : ([0xFF, 0, 0, 0, 0, 0, 0, 0xFF] : List Byte).length = 8 := by decide

/-- UnknownTagStopsTheLoad: the first reserved tag, and a known tag with 24 bytes after it. -/
theorem witness_UnknownTagStopsTheLoad :
    (∀ op, TagMap.default.tag op ≠ 0x0D) ∧ Opcode.gt ≠ Opcode.outStr ∧ 24 ≤ (List.replicate 24 (0 : Byte)).length :=
  ⟨by intro op; cases op <;> decide, by decide, by decide⟩

/-- ImageEndsOnlyAtARecordBoundary: the shortest and the longest cut of a record. -/
theorem witness_ImageEndsOnlyAtARecordBoundary :
    0 < 1 ∧ 1 < (encode TagMap.default (.push 5)).length ∧ 24 < (encode TagMap.default (.gt 0 1 7)).length := by decide

/-- InvalidUtf8StopsTheLoad: a lone 0xFF, and a surrogate. -/
theorem witness_InvalidUtf8StopsTheLoad :
    ([0xFF] : List Byte).length < 2 ^ 64 ∧ validUtf8 [0xFF] = false ∧ validUtf8 [0xED, 0xA0, 0x80] = false := by decide

/-- StepRunsFetchedInstruction, ErrorsRecordKindAndRaisingPc and the other statements over `exec` in a running state. -/
theorem witness_StepRunsFetchedInstruction :
    (at0 (.push 5) []).status.state = .running ∧
    (at0 (.push 5) []).prog[(at0 (.push 5) []).pc.toNat]? = some (.push 5) ∧ (at0 (.push 5) []).events = [] ∧
    ({ at0 (.push 5) [] with events := [.engineTurn, .reset] } : State).events = .engineTurn :: [.reset] := by decide

/-- LoadedBytesRunAsTheirInstruction: an image of two records, presented in IDLE. -/
theorem witness_LoadedBytesRunAsTheirInstruction :
    State.reset.cfg.wf = true ∧ State.reset.status.state = .idle ∧ Instr.wf (.push 5) = true ∧
    (∀ j ∈ [Instr.inLine], j.wf = true) ∧ [Instr.inLine].length + 1 ≤ State.reset.cfg.progCap ∧
    ({ State.reset with events := [.load [0x00, 5, 0, 0, 0, 0, 0, 0, 0, 0x02], .engineTurn] } : State).events =
      .load (encode TagMap.default (.push 5) ++ encodeProgram TagMap.default [.inLine]) :: .engineTurn :: [] := by
  decide

/-- PcPastTheEndHaltsCleanly: the last pc that fetches, pc equal to len(P) by either kind of turn, and the largest pc. -/
theorem witness_PcPastTheEndHaltsCleanly :
    ({ at0 (.push 5) [] with pc := 3, events := [.engineTurn, .reset] } : State).events = .engineTurn :: [.reset] ∧
    (2 : Word).toNat < ({ at0 (.push 5) [] with pc := 2 } : State).prog.length ∧
    (({ at0 (.push 5) [] with pc := 3 } : State).engineRuns ∧ ({ at0 (.push 5) [] with pc := 3 } : State).prog.length ≤ 3) ∧
    ({ at0 (.push 5) [] with pc := 0xFFFFFFFFFFFFFFFF } : State).prog.length ≤ (0xFFFFFFFFFFFFFFFF : Word).toNat := by
  decide

/-- HaltedStateStaysUntilReset: both halted states, with a load scheduled. -/
theorem witness_HaltedStateStaysUntilReset :
    (({ State.reset with status := Status.clean .pcOverrun, events := [.load [0x02]] } : State).status.state =
        .haltedClean ∧
      ({ State.reset with status := Status.clean .pcOverrun, events := [.load [0x02]] } : State).noReset) ∧
    ({ State.reset with status := Status.error .bounds .none } : State).status.state = .haltedError := by decide

/-- ResetFromAnyState: a reset while the engine runs. -/
theorem witness_ResetFromAnyState :
    ({ at0 (.push 5) [1] with events := [.reset] } : State).events = .reset :: [] := by decide

/-- LoadStartsOrReportsOrIsIgnored: outside IDLE, and in IDLE with an image that loads and one that does not. -/
theorem witness_LoadStartsOrReportsOrIsIgnored :
    (at0 (.push 5) []).status.state ≠ .idle ∧ State.reset.status.state = .idle ∧ State.reset.cfg.wf = true ∧
    load [] = .loaded [] ∧ load [0x02, 0xFF] = .formatError .unknownTag 1 := by decide

/-- The turn of each kind of event answers a next state (StateTransitionsFollowTheTable, StepKeepsTheInvariant,
ProgramIsNeverMutatedByTheEngine, OutputOnlyGrowsAndParametersStay). -/
theorem witness_turns_answer_next :
    (after (at0 (.push 5) [])).isSome = true ∧ (after { State.reset with events := [.engineTurn] }).isSome = true ∧
    (after { State.reset with events := [.load [0x02]] }).isSome = true ∧
    ((after { State.reset with events := [.load [0x02]] }).map (fun t => t.prog)) ≠ some State.reset.prog ∧
    (after { at0 (.push 5) [] with events := [.reset] }).isSome = true ∧
    (after { State.reset with events := [.answerInput [1] .eof] }).isSome = true ∧
    (after { State.reset with events := [.answerOutput [.ok] .stall] }).isSome = true := by decide

/-- StepKeepsTheInvariant, PcAdvancesOrTakesItsTarget: the state after reset meets the invariant. -/
theorem witness_invariant : State.reset.Inv where
  params := by decide
  status := by decide
  errInfo := by decide
  stack := by decide
  progLength := by decide
  progWf := by decide
  idle := by decide
  inPos := by decide
  lineBuf := by intro h; exact absurd rfl h
  outTaken := by intro h; exact absurd rfl h

/-- PcAdvancesOrTakesItsTarget: a running state that meets the invariant and fetches an instruction. -/
theorem witness_PcAdvancesOrTakesItsTarget :
    (at0 (.push 5) []).Inv ∧ (at0 (.push 5) []).fetch = some (.push 5) := by
  refine ⟨⟨by decide, by decide, by decide, by decide, by decide, by decide, by decide, by decide, ?_, ?_⟩,
    by decide⟩ <;> intro h <;> exact absurd rfl h

/-- A running instruction ends running, cleanly halted, and in an error. -/
theorem witness_three_endings :
    ((after (at0 (.push 5) [])).map (fun t => t.status.state)) = some .running ∧
    ((after (reading .inLine [] [] .eof)).map (fun t => t.status.state)) = some .haltedClean ∧
    ((after (at0 (.dec 0) [0])).map (fun t => t.status.state)) = some .haltedError := by decide

/-- OffsetsResolveOrRaiseBounds: the last offset that resolves and the first that does not. -/
theorem witness_OffsetsResolveOrRaiseBounds :
    (1 : Word).toNat < (at0 (.copy 1) [4, 7]).stack.length ∧ (at0 (.copy 2) [4, 7]).stack.length ≤ (2 : Word).toNat ∧
    (2 : Word) ∈ Instr.offsets (.add 0 2) := by decide

/-- The fourth clause of OffsetsResolveOrRaiseBounds: an instruction that raises BoundsError. -/
theorem witness_raises_bounds : Raises (.copy 2) (at0 (.copy 2) [4, 7]) .bounds :=
  ⟨_, rfl, by constructor <;> rfl⟩

/-- OverflowOnlyAtCapacity: an instruction that raises StackOverflowError. -/
theorem witness_raises_stackOverflow : Raises (.push 1) (capped 1 (at0 (.push 1) [7])) .stackOverflow :=
  ⟨_, rfl, by constructor <;> rfl⟩

/-- OffsetsShiftByOneAfterPush: a push that succeeds, and the largest offset of the clause. -/
theorem witness_OffsetsShiftByOneAfterPush :
    ((at0 (.push 5) [4]).push 5).isSome = true ∧ (0xFFFFFFFFFFFFFFFE : Word).toNat + 1 < 2 ^ 64 := by decide

/-- PushRule, InByteRule, LineEnds: a stack with room, and one at its capacity. -/
theorem witness_PushRule : ¬ (capped 2 (at0 (.push 5) [7])).full ∧ (capped 1 (at0 (.push 5) [7])).full := by decide

/-- CopyRule: an offset past the end, the bottom element, and the two cases of the push. -/
theorem witness_CopyRule :
    (at0 (.copy 2) [4, 7]).fromTop (2 : Word).toNat = none ∧ (at0 (.copy 1) [4, 7]).fromTop (1 : Word).toNat = some 4 ∧
    (capped 2 (at0 (.copy 1) [4, 7])).full ∧ ¬ (at0 (.copy 1) [4, 7]).full := by decide

/-- AddRule: each operand absent, and sums on both sides of 2^64. -/
theorem witness_AddRule :
    (at0 (.add 2 0) [1, 2]).fromTop (2 : Word).toNat = none ∧
    (at0 (.add 0 1) [0xFFFFFFFFFFFFFFFF, 1]).fromTop (0 : Word).toNat = some 1 ∧
    (at0 (.add 0 1) [0xFFFFFFFFFFFFFFFF, 1]).fromTop (1 : Word).toNat = some 0xFFFFFFFFFFFFFFFF ∧ (0 : Word) ≠ 1 ∧
    2 ^ 64 ≤ (1 : Word).toNat + (0xFFFFFFFFFFFFFFFF : Word).toNat ∧ State.reset.cfg.addWrap = false ∧
    (1 : Word).toNat + (0xFFFFFFFFFFFFFFFE : Word).toNat < 2 ^ 64 ∧
    ({ Params.default with addWrap := true } : Params).addWrap = true := by decide

/-- DecRule and IncRule: the values on both sides of where they raise. -/
theorem witness_DecRule_IncRule :
    (at0 (.dec 1) [0]).fromTop (1 : Word).toNat = none ∧ (at0 (.dec 0) [0]).fromTop (0 : Word).toNat = some 0 ∧
    (0 : Word).toNat + 1 = (1 : Word).toNat ∧ (0xFFFFFFFFFFFFFFFF : Word).toNat = 2 ^ 64 - 1 ∧
    (0xFFFFFFFFFFFFFFFF : Word).toNat = (0xFFFFFFFFFFFFFFFE : Word).toNat + 1 := by decide

/-- GtRule and EqRule: operands that are greater, equal and less, and one that is absent. -/
theorem witness_GtRule_EqRule :
    (at0 (.gt 0 1 7) [3, 9]).fromTop (0 : Word).toNat = some 9 ∧ (at0 (.gt 0 1 7) [3, 9]).fromTop (1 : Word).toNat = some 3 ∧
    (3 : Word).toNat < (9 : Word).toNat ∧ (5 : Word).toNat ≤ (5 : Word).toNat ∧ (3 : Word) ≠ 9 ∧
    (at0 (.gt 0 1 7) [5]).fromTop (1 : Word).toNat = none := by decide

/-- JmpRule, GtRule, EqRule: a target equal to len(P). -/
theorem witness_JmpRule : (at0 (.jmp 3) []).engineRuns ∧ (at0 (.jmp 3) []).prog.length ≤ (3 : Word).toNat := by decide

/-- OutRule, OutStrRule, OutByteRule: the operands, on both sides of 255. -/
theorem witness_output_operands :
    (at0 (.out 1) [8]).fromTop (1 : Word).toNat = none ∧ (at0 (.out 0) [8]).fromTop (0 : Word).toNat = some 8 ∧
    255 < (256 : Word).toNat ∧ (0xFF : Byte).toNat = (255 : Word).toNat := by decide

/-- OutRule, OutStrRule, OutByteRule: a port that accepts the write, in pieces and by its default. -/
theorem witness_PortOk :
    PortOk (writing (.out 0) [8] [.accept 1, .ok, .ioerr] .stall) [.ioerr] ∧ PortOk (at0 (.out 0) [8]) [] :=
  ⟨⟨[1], .inl rfl⟩, ⟨[], .inr ⟨rfl, rfl, rfl⟩⟩⟩

/-- The same: a port that fails at once, and after a piece. -/
theorem witness_PortFails :
    PortFails (writing (.out 0) [8] [] .ioerr) 0 [] ∧ PortFails (writing (.out 0) [8] [.accept 1, .ioerr] .ok) 1 [] :=
  ⟨⟨[], rfl, .inr ⟨rfl, rfl, rfl⟩⟩, ⟨[1], rfl, .inl rfl⟩⟩

/-- The same, and WaitingWriteGoesOnWhereItStopped: a port that holds the write after a piece; the write is pending and the
instruction answers a next state. -/
theorem witness_PortHolds :
    PortHolds (writing (.out 0) [8] [.accept 1] .stall) 1 ∧
    pendingWrite (.out 0) (writing (.out 0) [8] [.accept 1] .stall) = some [0x38, 0x0A] ∧
    (after (writing (.out 0) [8] [.accept 1] .stall)).isSome = true :=
  ⟨⟨[1], rfl, rfl, rfl⟩, by decide, by decide⟩

/-- InRule: a line that is there; no terminator and each terminal; a line in progress or none. -/
theorem witness_InRule :
    (reading .inLine [] [0x35, 0x0A, 0x41] .eof).unread = [0x35] ++ 0x0A :: [0x41] ∧ (0x0A : Byte) ∉ ([0x35] : List Byte) ∧
    (0x0A : Byte) ∉ (reading .inLine [] [0x35] .stall).unread ∧ (reading .inLine [] [0x35] .stall).inEnd = .stall ∧
    (reading .inLine [] [] .ioerr).inEnd = .ioerr ∧ (0x0A : Byte) ∉ (reading .inLine [] [] .ioerr).unread ∧
    (reading .inLine [] [] .eof).inEnd = .eof ∧
    (reading .inLine [] [] .eof).lineBuf ++ (reading .inLine [] [] .eof).unread = [] ∧
    (reading .inLine [] [0x35] .eof).lineBuf ++ (reading .inLine [] [0x35] .eof).unread ≠ [] ∧
    State.reset.cfg.inEofPartial = .parse ∧
    ({ Params.default with inEofPartial := .parseError } : Params).inEofPartial = .parseError := by decide

/-- LineEnds: a line that parses, and with `IN_TRIM` one with whitespace around it. -/
theorem witness_ParsesTo : ParsesTo false [0x30, 0x37] 7 ∧ ParsesTo true [0x20, 0x35, 0x0D] 5 :=
  ⟨⟨[], [0x30, 0x37], [], by decide⟩, ⟨[0x20], [0x35], [0x0D], by decide⟩⟩

/-- LineEnds: a line that does not parse. -/
theorem witness_not_ParsesTo : ∀ v, ¬ ParsesTo false [] v := by
  rintro v ⟨pre, digits, post, h, -, -, -, hd, -⟩
  simp_all

/-- InRule: an infinite sequence whose next byte ends the line, and one whose next byte does not. -/
theorem witness_InRule_endless :
    (0x0A : Byte) ∉ (reading .inLine [] [0x35] (.endless (.repeating 0x0A []))).unread ∧
    (reading .inLine [] [0x35] (.endless (.repeating 0x0A []))).inByteAt 1 = some 0x0A ∧
    (reading .inLine [] [0x35] (.endless (.repeating 0x36 [0x0A]))).inByteAt 1 = some 0x36 := by decide

/-- InByteRule: a listed byte, one of an infinite sequence, and none with each terminal. -/
theorem witness_InByteRule :
    (reading .inByte [] [0xFF] .stall).inByteAt 0 = some 0xFF ∧
    (reading .inByte [] [] (.endless (.repeating 0x79 [0x0A]))).inByteAt 0 = some 0x79 ∧
    (reading .inByte [] [] .stall).inByteAt 0 = none ∧ (reading .inByte [] [] .ioerr).inByteAt 0 = none ∧
    (reading .inByte [] [] .eof).inByteAt 0 = none ∧
    (reading .inByte [] [] .stall).inEnd = .stall ∧ (reading .inByte [] [] .ioerr).inEnd = .ioerr ∧
    (reading .inByte [] [] .eof).inEnd = .eof := by decide

/-- InReadAnswersTheInputSequence: a listed byte, the first and the fourth byte of a repeated block, and no byte. -/
theorem witness_InReadAnswersTheInputSequence :
    0 < (reading .inByte [] [0x41] .eof).input.length ∧ (reading .inByte [] [0x41] .eof).inByteAt 1 = none ∧
    (∀ x, (reading .inByte [] [0x41] .eof).inEnd ≠ .endless x) ∧
    (reading .inByte [] [0x41] (.endless (.repeating 0x79 [0x0A]))).inByteAt (1 + 0) = some 0x79 ∧
    (reading .inByte [] [0x41] (.endless (.repeating 0x79 [0x0A]))).inByteAt (1 + 3) = some 0x0A :=
  ⟨by decide, by decide, (fun _ h => nomatch h), by decide, by decide⟩

/-- EndlessLineIsReadToItsTerminator: two bytes of a line and its terminator, on a repeated block. -/
theorem witness_EndlessLineIsReadToItsTerminator :
    (reading .inLine [] [] (.endless (.repeating 0x34 [0x32, 0x0A]))).engineRuns ∧
    (reading .inLine [] [] (.endless (.repeating 0x34 [0x32, 0x0A]))).fetch = some .inLine ∧
    (reading .inLine [] [] (.endless (.repeating 0x34 [0x32, 0x0A]))).unread = [] ∧
    (∀ j < 2, (reading .inLine [] [] (.endless (.repeating 0x34 [0x32, 0x0A]))).inByteAt (0 + j) ≠ some 0x0A) ∧
    (reading .inLine [] [] (.endless (.repeating 0x34 [0x32, 0x0A]))).inByteAt (0 + 2) = some 0x0A := by decide

/-- ReadsShareOnePosition: both reads complete. -/
theorem witness_ReadsShareOnePosition :
    ((after (reading .inLine [] [0x35, 0x0A] .eof)).map (fun t => t.status.state)) = some .running ∧
    ((after (reading .inByte [] [0x35] .eof)).map (fun t => t.status.state)) = some .running := by decide

/-- LaterAnswersChangeNoFinishedRead: an In whose line is there while the port has not answered further. -/
theorem witness_LaterAnswersChangeNoFinishedRead :
    (reading .inLine [] [0x35, 0x0A] .stall).inEnd = .stall ∧ ¬ inputWaits .inLine (reading .inLine [] [0x35, 0x0A] .stall) ∧
    (after (reading .inLine [] [0x35, 0x0A] .stall)).isSome = true := by decide

/-- WaitingReadLosesNoByte: an In that waits inside its line. -/
theorem witness_WaitingReadLosesNoByte :
    (reading .inLine [] [0x35] .stall).inPos ≤ (reading .inLine [] [0x35] .stall).input.length ∧
    lineWaits (reading .inLine [] [0x35] .stall) ∧ (after (reading .inLine [] [0x35] .stall)).isSome = true := by decide

/-- InputTerminalIsSticky: a port at EOF with further answers scheduled. -/
theorem witness_InputTerminalIsSticky :
    (reading .inByte [] [] .eof).inEnd ≠ .stall ∧
    (after { reading .inByte [] [] .eof with events := [.answerInput [1] .stall] }).isSome = true := by decide

end Sys2Proof.Tests
end

section
/-! The family of 10_state.md, first part: how the classes of instructions exclude each other, what an instruction
leaves alone, and what it does to pc, S and STATUS. All of it is read off `exec_cases`. -/

namespace Sys2Proof.Machine

/-! ### The classes of instructions -/

/-- R150, R152, R154: only an output instruction offers bytes. -/
theorem writesOutput_of_pendingWrite {i : Instr} {s : State} {bytes : List Byte}
    (h : pendingWrite i s = some bytes) : i.writesOutput = true := by
  cases i <;> simp [pendingWrite, Instr.writesOutput] at h ⊢

theorem writesOutput_of_readsInput {i : Instr} (h : i.readsInput = true) : i.writesOutput = false := by
  cases i <;> simp [Instr.writesOutput, Instr.readsInput] at h ⊢

/-- R143: an instruction with a target uses no port. -/
theorem ports_of_target {i : Instr} {u : Word} (h : i.target = some u) :
    i.readsInput = false ∧ i.writesOutput = false := by
  cases i <;> simp [Instr.target, Instr.readsInput, Instr.writesOutput] at h ⊢

/-- R204: every output instruction may raise IOError. -/
theorem io_mem_mayRaise {i : Instr} (h : i.writesOutput = true) : Err.io ∈ i.mayRaise := by
  cases i <;> simp [Instr.writesOutput, Instr.mayRaise] at h ⊢

/-- R204: the errors of instructions are no FormatError, and "no error" is not one of them. -/
theorem mayRaise_ne {i : Instr} {e : Err} (h : e ∈ i.mayRaise) : e ≠ .none ∧ e ≠ .format := by
  constructor <;> rintro rfl <;> cases i <;> simp [Instr.mayRaise] at h

/-- R23: an output instruction leaves S. -/
theorem stackEffect_of_writesOutput {i : Instr} (h : i.writesOutput = true) (l : List Word) : StackEffect i l l := by
  cases i <;> simp [Instr.writesOutput, StackEffect] at h ⊢

/-- R23: an instruction with a target leaves S. -/
theorem stackEffect_of_target {i : Instr} {u : Word} (h : i.target = some u) (l : List Word) : StackEffect i l l := by
  cases i <;> simp [Instr.target, StackEffect] at h ⊢

theorem zeroExtend_toNat (b : Byte) : (zeroExtend b).toNat = b.toNat := by
  simp [zeroExtend]
  omega

/-! ### STATUS after an instruction -/

/-- R105, R200, R205: an instruction leaves STATUS, or halts cleanly at the end of input, or enters one of its own errors,
its pc in ERR_INFO. -/
theorem ExecCase.status_cases {i : Instr} {s t : State} (h : ExecCase i s t) :
    t.status = s.status ∨ (i.readsInput = true ∧ t = s.haltClean .inputEof) ∨
      (t.errInfo = s.pc ∧ ∃ e ∈ i.mayRaise, t.status = Status.error e .none) := by
  cases h with
  | raise p l e he => exact .inr (.inr ⟨rfl, e, he, rfl⟩)
  | writeError bytes k l hp => exact .inr (.inr ⟨rfl, .io, io_mem_mayRaise (writesOutput_of_pendingWrite hp), rfl⟩)
  | eof hi => exact .inr (.inl ⟨hi, rfl⟩)
  | _ => exact .inl rfl

/-- An instruction that halts cleanly is a read at the end of input, and only STATUS changes (R205, D27). -/
theorem ExecCase.eof_of_haltedClean {i : Instr} {s t : State} (h : ExecCase i s t) (hs : s.status.state = .running)
    (ht : t.status.state = .haltedClean) : i.readsInput = true ∧ t = s.haltClean .inputEof := by
  rcases h.status_cases with e | e | ⟨-, _, -, e⟩
  · simp [e, hs] at ht
  · exact e
  · simp [e, Status.error] at ht

/-- An instruction that ends in HALTED_ERROR raised one of its own errors (R201, R204). -/
theorem ExecCase.raised_of_haltedError {i : Instr} {s t : State} (h : ExecCase i s t) (hs : s.status.state = .running)
    (ht : t.status.state = .haltedError) : t.errInfo = s.pc ∧ ∃ e ∈ i.mayRaise, t.status = Status.error e .none := by
  rcases h.status_cases with e | ⟨-, rfl⟩ | e
  · simp [e, hs] at ht
  · simp [Status.clean] at ht
  · exact e

/-- Settles O27: the error's entry is one of the cases of `exec_cases`. -/
theorem errorsRecordKindAndRaisingPc : Obligations.ErrorsRecordKindAndRaisingPc := by
  intro i s t hs h ht
  exact (exec_cases i s t h).raised_of_haltedError hs ht

/-! ### pc and S after an instruction -/

/-- R105, R107, R143: where pc is after an instruction that goes on. -/
theorem ExecCase.pc_cases {i : Instr} {s t : State} (h : ExecCase i s t) (ht : t.status.state = .running) :
    t.pc = s.pc + 1 ∨ i.target = some t.pc ∨
      (t.pc = s.pc ∧ (readGoesOn i s ∨ (i.writesOutput = true ∧ ∃ k, PortHolds s k))) := by
  cases h with
  | raise => cases ht
  | writeError => cases ht
  | eof => cases ht
  | line => exact .inl rfl
  | byte => exact .inl rfl
  | written => exact .inl rfl
  | fallthrough => exact .inl rfl
  | jump u hu => exact .inr (.inl hu)
  | lineWait hi hw => exact .inr (.inr ⟨rfl, .inl (.inl (.inl ⟨hi, hw⟩))⟩)
  | lineMore b hi hw => exact .inr (.inr ⟨rfl, .inl (.inr ⟨hi, b, hw⟩)⟩)
  | byteWait hi hw => exact .inr (.inr ⟨rfl, .inl (.inl (.inr ⟨hi, hw⟩))⟩)
  | writeWait bytes k hp hk => exact .inr (.inr ⟨rfl, .inr ⟨writesOutput_of_pendingWrite hp, k, hk⟩⟩)

/-- R23: what an instruction that goes on has done to S. -/
theorem ExecCase.stack_cases {i : Instr} {s t : State} (h : ExecCase i s t) (ht : t.status.state = .running) :
    (readGoesOn i s ∧ t.stack = s.stack) ∨ StackEffect i s.stack t.stack := by
  cases h with
  | raise => cases ht
  | writeError => cases ht
  | eof => cases ht
  | lineWait hi hw => exact .inl ⟨.inl (.inl ⟨hi, hw⟩), rfl⟩
  | lineMore b hi hw => exact .inl ⟨.inr ⟨hi, b, hw⟩, rfl⟩
  | byteWait hi hw => exact .inl ⟨.inl (.inr ⟨hi, hw⟩), rfl⟩
  | line v p hi =>
    subst hi
    exact .inr ⟨v, rfl⟩
  | byte b hi =>
    subst hi
    exact .inr ⟨zeroExtend b, by rw [zeroExtend_toNat]; omega, rfl⟩
  | written bytes l hp => exact .inr (stackEffect_of_writesOutput (writesOutput_of_pendingWrite hp) _)
  | writeWait bytes k hp => exact .inr (stackEffect_of_writesOutput (writesOutput_of_pendingWrite hp) _)
  | fallthrough l hl => exact .inr hl
  | jump u hu => exact .inr (stackEffect_of_target hu _)

/-- Settles O52: the table of R23 from the cases of `exec_cases`; a clean halt changes STATUS only. -/
theorem stackChangesAsTabled : Obligations.StackChangesAsTabled := by
  intro i s t hs h
  have hc := exec_cases i s t h
  refine ⟨hc.stack_cases, fun ht => ?_⟩
  obtain ⟨-, rfl⟩ := hc.eof_of_haltedClean hs ht
  rfl

/-- R22, R24, R101: the pc of a fetched instruction stands in P, whose length is a u64, so pc + 1 does not wrap. -/
theorem State.Inv.pc_succ_toNat {s : State} {i : Instr} (hs : s.Inv) (hi : s.fetch = some i) :
    (s.pc + 1).toNat = s.pc.toNat + 1 := by
  have hpc : s.pc.toNat < s.prog.length := (List.getElem?_eq_some_iff.mp hi).1
  have hcap : s.cfg.progCap ≤ 2 ^ 64 - 1 := by
    have hw := hs.params
    simp only [Params.wf, Bool.and_eq_true, decide_eq_true_eq] at hw
    exact hw.2
  have hlen := hs.progLength
  have h1 : (1 : Word).toNat = 1 := rfl
  rw [BitVec.toNat_add, h1, Nat.mod_eq_of_lt (by omega)]

/-- Settles O26: an instruction that goes on by its pc, a clean halt by its state, and no wrap by the invariant. -/
theorem pcAdvancesOrTakesItsTarget : Obligations.PcAdvancesOrTakesItsTarget := by
  refine ⟨fun i s t _ h ht => (exec_cases i s t h).pc_cases ht, fun i s t hs h ht => ?_,
    fun i s hs hi => hs.pc_succ_toNat hi⟩
  obtain ⟨hi, rfl⟩ := (exec_cases i s t h).eof_of_haltedClean hs ht
  exact ⟨rfl, rfl, rfl, hi⟩

/-! ### What instructions leave alone -/

/-- No instruction writes P, the parameters, the schedule or what the ports hold ready. -/
structure SameSurroundings (s t : State) : Prop where
  prog : t.prog = s.prog
  cfg : t.cfg = s.cfg
  events : t.events = s.events
  input : t.input = s.input
  inEnd : t.inEnd = s.inEnd
  outEnd : t.outEnd = s.outEnd

theorem ExecCase.surroundings {i : Instr} {s t : State} (h : ExecCase i s t) : SameSurroundings s t := by
  cases h <;> exact ⟨rfl, rfl, rfl, rfl, rfl, rfl⟩

/-- R54: only the output instructions touch the output and its coming replies. -/
theorem ExecCase.output_of_not_writes {i : Instr} {s t : State} (h : ExecCase i s t) (hw : i.writesOutput = false) :
    t.output = s.output ∧ t.outReplies = s.outReplies := by
  cases h with
  | written bytes l hp => simp [writesOutput_of_pendingWrite hp] at hw
  | writeError bytes k l hp => simp [writesOutput_of_pendingWrite hp] at hw
  | writeWait bytes k hp => simp [writesOutput_of_pendingWrite hp] at hw
  | _ => exact ⟨rfl, rfl⟩

/-- R26: only an error entry writes ERR_INFO, and only it takes a free value (log 12). -/
theorem ExecCase.errInfo_of_no_error {i : Instr} {s t : State} (h : ExecCase i s t)
    (ht : t.status.state ≠ .haltedError) : t.errInfo = s.errInfo ∧ t.freeIdx = s.freeIdx := by
  cases h with
  | raise => exact absurd rfl ht
  | writeError => exact absurd rfl ht
  | _ => exact ⟨rfl, rfl⟩

/-- R27: outside errors only In and InByte move the read position and the line in progress. -/
theorem ExecCase.input_of_not_reads {i : Instr} {s t : State} (h : ExecCase i s t)
    (ht : t.status.state ≠ .haltedError) (hr : i.readsInput = false) :
    t.inPos = s.inPos ∧ t.lineBuf = s.lineBuf := by
  cases h with
  | raise => exact absurd rfl ht
  | writeError => exact absurd rfl ht
  | line v p hi => simp [hi, Instr.readsInput] at hr
  | lineWait hi => simp [hi, Instr.readsInput] at hr
  | lineMore b hi => simp [hi, Instr.readsInput] at hr
  | byte b hi => simp [hi, Instr.readsInput] at hr
  | _ => exact ⟨rfl, rfl⟩

/-- R107: outside errors only the output instructions move a write in progress. -/
theorem ExecCase.outTaken_of_not_writes {i : Instr} {s t : State} (h : ExecCase i s t)
    (ht : t.status.state ≠ .haltedError) (hw : i.writesOutput = false) : t.outTaken = s.outTaken := by
  cases h with
  | raise => exact absurd rfl ht
  | writeError => exact absurd rfl ht
  | written bytes l hp => simp [writesOutput_of_pendingWrite hp] at hw
  | writeWait bytes k hp => simp [writesOutput_of_pendingWrite hp] at hw
  | _ => rfl

/-- Settles O53: clause by clause, from the frame lemmas above. -/
theorem instructionsLeaveTheRestAlone : Obligations.InstructionsLeaveTheRestAlone := by
  intro i s t _ h
  have hc := exec_cases i s t h
  obtain ⟨hprog, hcfg, hevents, hinput, hinEnd, houtEnd⟩ := hc.surroundings
  exact ⟨hprog, hcfg, hevents, hinput, hinEnd, houtEnd, hc.output_of_not_writes, hc.errInfo_of_no_error,
    hc.input_of_not_reads, hc.outTaken_of_not_writes⟩

end Sys2Proof.Machine
end

section
/-! The STATUS word (R25). -/

namespace Sys2Proof

/-- Bits [7:0] of the word hold ERR, HALT_CAUSE and STATE. -/
theorem Status.word_low (st : Status) (start len : Nat) (h : start + len ≤ 8) :
    st.word.extractLsb' start len = (st.err.code ++ (st.cause.code ++ st.state.code)).extractLsb' start len :=
  BitVec.extractLsb'_append_eq_of_add_le h

/-- Bits [31:8] of the word hold FMT_SUB and, above it, zeros. -/
theorem Status.word_high (st : Status) (start len : Nat) (h : 8 ≤ start) :
    st.word.extractLsb' start len = (0#20 ++ st.fmtSub.code).extractLsb' (start - 8) len :=
  BitVec.extractLsb'_append_eq_of_le h

theorem Status.word_state (st : Status) : st.word.extractLsb 1 0 = st.state.code :=
  (st.word_low 0 2 (by decide)).trans
    ((BitVec.extractLsb'_append_eq_of_add_le (by decide)).trans BitVec.extractLsb'_append_eq_right)

theorem Status.word_cause (st : Status) : st.word.extractLsb 3 2 = st.cause.code :=
  (st.word_low 2 2 (by decide)).trans
    ((BitVec.extractLsb'_append_eq_of_add_le (by decide)).trans BitVec.extractLsb'_append_eq_left)

theorem Status.word_err (st : Status) : st.word.extractLsb 7 4 = st.err.code :=
  (st.word_low 4 4 (by decide)).trans BitVec.extractLsb'_append_eq_left

theorem Status.word_fmtSub (st : Status) : st.word.extractLsb 11 8 = st.fmtSub.code :=
  (st.word_high 8 4 (by decide)).trans BitVec.extractLsb'_append_eq_right

theorem Status.word_reserved (st : Status) : st.word.extractLsb 31 12 = 0 :=
  (st.word_high 12 20 (by decide)).trans BitVec.extractLsb'_append_eq_left

/-- Settles O54: the fields by their places in the word, the written-out words by evaluation. -/
theorem statusWordLayout : Obligations.StatusWordLayout := by
  intro st
  refine ⟨st.word_state, st.word_cause, st.word_err, st.word_fmtSub, st.word_reserved, ?_⟩
  decide

end Sys2Proof
end

section
/-! What the loader gives (R80): only well-formed instructions, no more than `PROG_CAP`, and a sub-kind with every error. -/

namespace Sys2Proof

/-- A record read is a well-formed instruction, or the failure has a sub-kind. -/
def RecordResult.Sound (r : RecordResult) : Prop :=
  match r with
  | .ok i _ => i.wf = true
  | .bad sub => sub ≠ .none

/-- The same of a whole image, with `PROG_CAP`. -/
def LoadResult.Sound (cap : Nat) (r : LoadResult) : Prop :=
  match r with
  | .loaded prog => prog.length ≤ cap ∧ ∀ i ∈ prog, i.wf = true
  | .formatError sub _ => sub ≠ .none

theorem readF1_sound {f : Word → Instr} (hf : ∀ x, (f x).wf = true) (bs : List Byte) : (readF1 f bs).Sound := by
  unfold readF1
  split
  · simp [RecordResult.Sound]
  · exact hf _

theorem readF2_sound {f : Word → Word → Instr} (hf : ∀ x y, (f x y).wf = true) (bs : List Byte) :
    (readF2 f bs).Sound := by
  unfold readF2
  split
  · simp [RecordResult.Sound]
  · exact readF1_sound (hf _) _

theorem readF3_sound {f : Word → Word → Word → Instr} (hf : ∀ x y z, (f x y z).wf = true) (bs : List Byte) :
    (readF3 f bs).Sound := by
  unfold readF3
  split
  · simp [RecordResult.Sound]
  · exact readF2_sound (hf _) _

/-- R75: a string that is read is as long as its u64 length field, and valid UTF-8. -/
theorem readS_sound (bs : List Byte) : (readS bs).Sound := by
  unfold readS
  split
  · simp [RecordResult.Sound]
  · rename_i n rest _
    split
    · simp [RecordResult.Sound]
    · split
      · rename_i hu
        have hn := n.isLt
        simp only [RecordResult.Sound, Instr.wf, hu, List.length_take, Bool.and_true, decide_eq_true_eq]
        omega
      · simp [RecordResult.Sound]

theorem readPayload_sound (op : Opcode) (bs : List Byte) : (readPayload op bs).Sound := by
  cases op with
  | inLine => rfl
  | inByte => rfl
  | outStr => exact readS_sound bs
  | add => exact readF2_sound (fun _ _ => rfl) bs
  | gt => exact readF3_sound (fun _ _ _ => rfl) bs
  | eq => exact readF3_sound (fun _ _ _ => rfl) bs
  | _ => exact readF1_sound (fun _ => rfl) bs

theorem decodeRecord_sound (tm : TagMap) (bs : List Byte) : (decodeRecord tm bs).Sound := by
  unfold decodeRecord
  split
  · simp [RecordResult.Sound]
  · split
    · simp [RecordResult.Sound]
    · exact readPayload_sound _ _

/-- R80: the loop keeps what was decoded well formed and within `PROG_CAP`. -/
theorem decodeFrom_sound (tm : TagMap) (cap : Nat) (bs : List Byte) (skip off : Nat) (acc : List Instr)
    (hl : acc.length ≤ cap) (hw : ∀ i ∈ acc, i.wf = true) :
    (decodeFrom tm cap bs skip off acc).Sound cap := by
  induction bs generalizing skip off acc with
  | nil => exact ⟨hl, hw⟩
  | cons b rest ih =>
    cases skip with
    | succ k => exact ih k (off + 1) acc hl hw
    | zero =>
      have hr := decodeRecord_sound tm (b :: rest)
      cases hd : decodeRecord tm (b :: rest) with
      | bad sub =>
        rw [hd] at hr
        rw [decodeFrom_bad tm cap b rest sub off acc hd]
        exact hr
      | ok i left =>
        rw [hd] at hr
        simp only [decodeFrom, hd]
        split
        · simp [LoadResult.Sound]
        · rename_i hc
          refine ih _ _ _ (by simp; omega) ?_
          simpa [or_imp, forall_and] using ⟨hw, hr⟩

theorem decode_sound (tm : TagMap) (cap : Nat) (image : List Byte) : (decode tm cap image).Sound cap :=
  decodeFrom_sound tm cap image 0 0 [] (Nat.zero_le _) (by simp)

end Sys2Proof
end

section
/-! The invariant (R22 to R27, R30, R107): every clause read off the cases of `exec_cases`, then every turn. -/

namespace Sys2Proof.Machine

/-! ### What a turn does -/

/-- R231: what a load does. -/
theorem hostLoad_cases {s t : State} {image : List Byte} (h : s.hostLoad image = .next t) :
    (s.status.state ≠ .idle ∧ t = s) ∨
    (s.status.state = .idle ∧
      ((∃ prog, prog.length ≤ s.cfg.progCap ∧ (∀ i ∈ prog, i.wf = true) ∧ t = s.install prog) ∨
        ∃ sub offset, sub ≠ FmtSub.none ∧ t = s.enterError .format sub offset)) := by
  unfold State.hostLoad at h
  split at h
  · rename_i hidle
    split at h
    · have hd := decode_sound s.cfg.tags s.cfg.progCap image
      split at h <;> rename_i heq <;> rw [heq] at hd <;> cases h
      · exact .inr ⟨hidle, .inl ⟨_, hd.1, hd.2, rfl⟩⟩
      · exact .inr ⟨hidle, .inr ⟨_, _, hd, rfl⟩⟩
    · cases h
  · rename_i hidle
    cases h
    exact .inl ⟨hidle, rfl⟩

/-- R101, R108: what the engine's turn does. -/
theorem engineTurn_cases {s t : State} (h : engineTurn s = .next t) :
    (s.status.state ≠ .running ∧ t = s) ∨
    (s.status.state = .running ∧
      ((s.fetch = none ∧ t = s.haltClean .pcOverrun) ∨ ∃ i, s.fetch = some i ∧ ExecCase i s t)) := by
  unfold engineTurn at h
  cases hs : s.status.state with
  | running =>
    refine .inr ⟨rfl, ?_⟩
    cases hf : s.fetch with
    | none =>
      simp only [hs, hf, Host.Outcome.next.injEq] at h
      exact .inl ⟨rfl, h.symm⟩
    | some i =>
      simp only [hs, hf] at h
      exact .inr ⟨i, rfl, exec_cases i s t h⟩
  | _ =>
    simp only [hs, Host.Outcome.next.injEq] at h
    exact .inl ⟨by simp, h.symm⟩

/-- R55: a turn is the engine's, on the state with an empty or a shortened schedule, or it is one of the host's requests. -/
theorem step_cases {s t : State} (h : step s = .next t) :
    ∃ rest,
      (((s.events = [] ∧ rest = []) ∨ s.events = .engineTurn :: rest) ∧
        engineTurn { s with events := rest } = .next t) ∨
      (s.events = .reset :: rest ∧ t = { s with events := rest }.hostReset) ∨
      (∃ image, s.events = .load image :: rest ∧ { s with events := rest }.hostLoad image = .next t) ∨
      (∃ bytes fin, s.events = .answerInput bytes fin :: rest ∧ t = { s with events := rest }.answerInput bytes fin) ∨
      (∃ replies fin, s.events = .answerOutput replies fin :: rest ∧
        t = { s with events := rest }.answerOutput replies fin) := by
  unfold step at h
  split at h
  · rename_i he
    have e : { s with events := [] } = s := by rw [← he]
    exact ⟨[], .inl ⟨.inl ⟨he, rfl⟩, by rw [e, h]⟩⟩
  · rename_i e rest he
    refine ⟨rest, ?_⟩
    cases e with
    | engineTurn => exact .inl ⟨.inr he, h⟩
    | reset =>
      cases h
      exact .inr (.inl ⟨he, rfl⟩)
    | load image => exact .inr (.inr (.inl ⟨image, he, h⟩))
    | answerInput bytes fin =>
      cases h
      exact .inr (.inr (.inr (.inl ⟨bytes, fin, he, rfl⟩)))
    | answerOutput replies fin =>
      cases h
      exact .inr (.inr (.inr (.inr ⟨replies, fin, he, rfl⟩)))

/-- R22: the engine's turn leaves P. -/
theorem engineTurn_prog {s t : State} (h : engineTurn s = .next t) : t.prog = s.prog := by
  rcases engineTurn_cases h with ⟨-, rfl⟩ | ⟨-, ⟨-, rfl⟩ | ⟨i, -, hc⟩⟩
  · rfl
  · rfl
  · exact hc.surroundings.prog

/-- Settles O23: of all turns only the reset and a load in IDLE are left. -/
theorem programIsNeverMutatedByTheEngine : Obligations.ProgramIsNeverMutatedByTheEngine := by
  intro s t h hne
  obtain ⟨rest, ⟨-, ht⟩ | ⟨he, -⟩ | ⟨image, he, hl⟩ | ⟨bytes, fin, -, rfl⟩ | ⟨replies, fin, -, rfl⟩⟩ := step_cases h
  · exact absurd (engineTurn_prog ht) hne
  · exact .inl ⟨rest, he⟩
  · rcases hostLoad_cases hl with ⟨-, rfl⟩ | ⟨hidle, -⟩
    · exact absurd rfl hne
    · exact .inr ⟨hidle, image, rest, he⟩
  · exact absurd (State.answerInput_prog _ bytes fin) hne
  · exact absurd (State.answerOutput_prog _ replies fin) hne

/-! ### STATUS and the stack -/

/-- R25, R201: the STATUS of an error entry is legal. -/
theorem legal_error_of_mayRaise {i : Instr} {e : Err} (h : e ∈ i.mayRaise) : (Status.error e .none).legal = true := by
  obtain ⟨hn, hf⟩ := mayRaise_ne h
  simp [Status.error, Status.legal, hn, hf]

theorem legal_error_format {sub : FmtSub} (h : sub ≠ .none) : (Status.error .format sub).legal = true := by
  simp [Status.error, Status.legal, h]

/-- R25: an instruction leaves a legal STATUS. -/
theorem ExecCase.status_legal {i : Instr} {s t : State} (h : ExecCase i s t) (hs : s.status.legal = true) :
    t.status.legal = true := by
  rcases h.status_cases with e | ⟨-, rfl⟩ | ⟨-, e, he, hst⟩
  · rw [e, hs]
  · rfl
  · rw [hst, legal_error_of_mayRaise he]

/-- R100: an instruction does not lead to IDLE. -/
theorem ExecCase.not_idle {i : Instr} {s t : State} (h : ExecCase i s t) (hs : s.status.state = .running) :
    t.status.state ≠ .idle := by
  rcases h.status_cases with e | ⟨-, rfl⟩ | ⟨-, e, -, hst⟩
  · simp [e, hs]
  · simp [Status.clean]
  · simp [hst, Status.error]

theorem stackFits_le {cap : Option Nat} {m n : Nat} (h : stackFits cap n = true) (hm : m ≤ n) :
    stackFits cap m = true := by
  cases cap with
  | none => rfl
  | some c =>
    simp only [stackFits, decide_eq_true_eq] at h ⊢
    omega

/-- R104: below the capacity one more element fits. -/
theorem stackFits_succ {s : State} (h : stackFits s.cfg.stackCap s.stack.length = true) (hf : ¬ s.full) :
    stackFits s.cfg.stackCap (s.stack.length + 1) = true := by
  unfold State.full at hf
  cases hc : s.cfg.stackCap with
  | none => rfl
  | some c =>
    simp only [hc, stackFits, decide_eq_true_eq, Option.some.injEq] at h hf ⊢
    omega

/-- R23: the unspecified stack after an error keeps within the capacity (log 13). -/
theorem stackFits_boundStack (cap : Option Nat) (l : List Word) : stackFits cap (boundStack cap l).length = true := by
  cases cap with
  | none => rfl
  | some c => simp [stackFits, boundStack]

/-- R23: an instruction keeps S within the capacity. -/
theorem ExecCase.stack_fits {i : Instr} {s t : State} (h : ExecCase i s t)
    (hs : stackFits s.cfg.stackCap s.stack.length = true) : stackFits t.cfg.stackCap t.stack.length = true := by
  cases h with
  | raise => exact stackFits_boundStack _ _
  | writeError => exact stackFits_boundStack _ _
  | line v p hi hf => simpa using stackFits_succ hs hf
  | byte b hi hf => simpa using stackFits_succ hs hf
  | fallthrough l hl hr hw hc =>
    rcases hc with hle | ⟨heq, hf⟩
    · exact stackFits_le hs hle
    · simpa [heq] using stackFits_succ hs hf
  | _ => exact hs

/-! ### The bytes consumed -/

/-- R27: the sequence has a byte at each of the first `n` places. -/
def State.HasBytes (s : State) (n : Nat) : Prop := ∀ k < n, (s.inByteAt k).isSome

theorem State.HasBytes.mono {s : State} {m n : Nat} (h : s.HasBytes n) (hm : m ≤ n) : s.HasBytes m :=
  fun k hk => h k (Nat.lt_of_lt_of_le hk hm)

theorem State.HasBytes.succ {s : State} {n : Nat} {b : Byte} (h : s.HasBytes n) (hb : s.inByteAt n = some b) :
    s.HasBytes (n + 1) := by
  intro k hk
  rcases Nat.lt_succ_iff_lt_or_eq.mp hk with hk | rfl
  · exact h k hk
  · simp [hb]

/-- The listed bytes that are not consumed follow those that are. -/
theorem State.HasBytes.unread {s : State} (h : s.HasBytes s.inPos) : s.HasBytes (s.inPos + s.unread.length) := by
  intro k hk
  by_cases hp : k < s.inPos
  · exact h k hp
  · obtain ⟨j, rfl⟩ := Nat.exists_eq_add_of_le (Nat.not_lt.mp hp)
    have hj : j < s.unread.length := by omega
    rw [← unread_getElem? s j hj]
    simp [hj]

/-- R27, R51: an instruction consumes only bytes of the sequence. -/
theorem ExecCase.hasBytes {i : Instr} {s t : State} (h : ExecCase i s t) (ht : t.status.state ≠ .haltedError)
    (hs : s.HasBytes s.inPos) : t.HasBytes t.inPos := by
  cases h with
  | raise => exact absurd rfl ht
  | writeError => exact absurd rfl ht
  | line v p hi hf hp =>
    show s.HasBytes p
    rcases hp with ⟨line, -, hu, rfl⟩ | ⟨-, rfl, -⟩ | ⟨-, rfl, hb⟩
    · refine hs.unread.mono ?_
      simp [hu]
    · exact hs.unread
    · exact hs.unread.succ hb
  | lineWait => exact hs.unread
  | lineMore b hi hw => exact hs.unread.succ hw.2.1
  | byte b hi hf hb => exact hs.succ hb
  | _ => exact hs

/-! ### The line in progress -/

/-- R151: `l` holds no terminator and is the last bytes of the sequence before place `pos`. -/
def State.LineEndsAt (s : State) (l : List Byte) (pos : Nat) : Prop :=
  newline ∉ l ∧ ∃ first, first + l.length = pos ∧ ∀ j < l.length, l[j]? = s.inByteAt (first + j)

theorem State.LineEndsAt.nil (s : State) (pos : Nat) : s.LineEndsAt [] pos :=
  ⟨by simp, pos, rfl, by simp⟩

/-- The bytes from `pos` on lengthen the line. -/
theorem State.LineEndsAt.append {s : State} {l bs : List Byte} {pos : Nat} (h : s.LineEndsAt l pos)
    (hn : newline ∉ bs) (hb : ∀ j < bs.length, bs[j]? = s.inByteAt (pos + j)) :
    s.LineEndsAt (l ++ bs) (pos + bs.length) := by
  obtain ⟨hnl, first, rfl, hl⟩ := h
  refine ⟨by simp [hnl, hn], first, by simp; omega, fun j hj => ?_⟩
  by_cases hjl : j < l.length
  · rw [List.getElem?_append_left hjl, hl j hjl]
  · obtain ⟨k, rfl⟩ := Nat.exists_eq_add_of_le (Nat.not_lt.mp hjl)
    have hk : k < bs.length := by simp at hj; omega
    rw [List.getElem?_append_right (Nat.le_add_right _ _), Nat.add_sub_cancel_left, hb k hk, Nat.add_assoc]

theorem State.LineEndsAt.unread {s : State} (h : s.LineEndsAt s.lineBuf s.inPos) (hn : newline ∉ s.unread) :
    s.LineEndsAt (s.lineBuf ++ s.unread) (s.inPos + s.unread.length) :=
  h.append hn (unread_getElem? s)

theorem State.LineEndsAt.snoc {s : State} {l : List Byte} {pos : Nat} {b : Byte} (h : s.LineEndsAt l pos)
    (hn : b ≠ newline) (hb : s.inByteAt pos = some b) : s.LineEndsAt (l ++ [b]) (pos + 1) :=
  h.append (by simpa using hn.symm) (by simp [hb])

theorem State.Inv.lineEndsAt {s : State} (hs : s.Inv) : s.LineEndsAt s.lineBuf s.inPos := by
  by_cases hl : s.lineBuf = []
  · rw [hl]
    exact .nil s _
  · exact (hs.lineBuf hl).2.2

theorem State.Inv.lineBuf_eq_nil {s : State} (hs : s.Inv)
    (h : s.status.state = .running → s.fetch ≠ some .inLine) : s.lineBuf = [] := by
  by_contra hl
  obtain ⟨hr, hf, -⟩ := hs.lineBuf hl
  exact h hr hf

/-- R107, R151: an instruction leaves a line in progress only as an In that has not completed, with the bytes it read. -/
theorem ExecCase.line_in_progress {i : Instr} {s t : State} (h : ExecCase i s t) (hs : s.Inv)
    (hf : s.fetch = some i) (hl : t.lineBuf ≠ []) :
    i = .inLine ∧ t.status = s.status ∧ t.pc = s.pc ∧ t.LineEndsAt t.lineBuf t.inPos := by
  have other (hi : i ≠ .inLine) : s.lineBuf = [] := hs.lineBuf_eq_nil fun _ => by simpa [hf] using hi
  cases h with
  | raise => exact absurd rfl hl
  | writeError => exact absurd rfl hl
  | line => exact absurd rfl hl
  | lineWait hi hw => exact ⟨hi, rfl, rfl, hs.lineEndsAt.unread hw.1⟩
  | lineMore b hi hw =>
    obtain ⟨hn, hb, hne⟩ := hw
    exact ⟨hi, rfl, rfl, (hs.lineEndsAt.unread hn).snoc hne hb⟩
  | eof hi hnil =>
    by_cases he : i = .inLine
    · exact absurd (hnil he) hl
    · exact absurd (other he) hl
  | byte b hi => exact absurd (other (by simp [hi])) hl
  | byteWait hi => exact absurd (other (by simp [hi])) hl
  | written bytes l hp => exact absurd (other (by rintro rfl; cases hp)) hl
  | writeWait bytes k hp => exact absurd (other (by rintro rfl; cases hp)) hl
  | fallthrough l _ hr => exact absurd (other (by rintro rfl; cases hr)) hl
  | jump u hu => exact absurd (other (by rintro rfl; cases hu)) hl

/-! ### The write in progress -/

/-- R53, R107: a write in progress of `n` bytes is that of the output instruction `i`, and ends the output. -/
def WriteHeld (i : Instr) (s : State) (n : Nat) : Prop :=
  ∃ bytes, pendingWrite i s = some bytes ∧ n ≤ bytes.length ∧ bytes.take n <:+ s.output

/-- The bytes an output instruction offers are a matter of S. -/
theorem pendingWrite_congr {i : Instr} {s t : State} (h : t.stack = s.stack) : pendingWrite i t = pendingWrite i s := by
  cases i <;> simp only [pendingWrite, State.fromTop, h]

theorem State.Inv.writeHeld {s : State} {i : Instr} (hs : s.Inv) (hf : s.fetch = some i) (ho : s.outTaken ≠ 0) :
    WriteHeld i s s.outTaken := by
  obtain ⟨-, i', bytes, hf', hw⟩ := hs.outTaken ho
  obtain rfl : i = i' := Option.some.inj (hf.symm.trans hf')
  exact ⟨bytes, hw⟩

theorem State.Inv.outTaken_eq_zero {s : State} (hs : s.Inv)
    (h : s.status.state = .running → ∀ i, s.fetch = some i → i.writesOutput = false) : s.outTaken = 0 := by
  by_contra ho
  obtain ⟨hr, i, bytes, hf, hp, -⟩ := hs.outTaken ho
  simpa [writesOutput_of_pendingWrite hp] using h hr i hf

/-- R53: after a further piece of a write the output ends in the longer part of it. -/
theorem take_suffix_append {bytes out : List Byte} {n : Nat} (h : bytes.take n <:+ out) (k : Nat) :
    bytes.take (n + ((bytes.drop n).take k).length) <:+ out ++ (bytes.drop n).take k := by
  obtain ⟨front, rfl⟩ := h
  refine ⟨front, ?_⟩
  rw [List.take_add, List.append_assoc, List.length_take, ← List.take_eq_take_min]

/-- R53, R107: an instruction leaves a write in progress only as an output instruction whose write waits. -/
theorem ExecCase.write_in_progress {i : Instr} {s t : State} (h : ExecCase i s t) (hs : s.Inv)
    (hf : s.fetch = some i) (ho : t.outTaken ≠ 0) :
    t.status = s.status ∧ t.pc = s.pc ∧ WriteHeld i t t.outTaken := by
  have other (hw : i.writesOutput = false) : s.outTaken = 0 :=
    hs.outTaken_eq_zero fun _ i' hf' => by rwa [Option.some.inj (hf'.symm.trans hf)]
  cases h with
  | raise => exact absurd rfl ho
  | writeError => exact absurd rfl ho
  | written => exact absurd rfl ho
  | writeWait bytes k hp =>
    have held : s.outTaken ≤ bytes.length ∧ bytes.take s.outTaken <:+ s.output := by
      by_cases h0 : s.outTaken = 0
      · simp [h0]
      · obtain ⟨bytes', hp', hb⟩ := hs.writeHeld hf h0
        rwa [Option.some.inj (hp.symm.trans hp')]
    obtain ⟨hle, hsuf⟩ := held
    refine ⟨rfl, rfl, bytes, (pendingWrite_congr rfl).trans hp, ?_, take_suffix_append hsuf k⟩
    simp
    omega
  | line v p hi => exact absurd (other (by rw [hi]; rfl)) ho
  | lineWait hi => exact absurd (other (by rw [hi]; rfl)) ho
  | lineMore b hi => exact absurd (other (by rw [hi]; rfl)) ho
  | eof hi => exact absurd (other (writesOutput_of_readsInput hi)) ho
  | byte b hi => exact absurd (other (by rw [hi]; rfl)) ho
  | byteWait hi => exact absurd (other (by rw [hi]; rfl)) ho
  | fallthrough l _ _ hw => exact absurd (other hw) ho
  | jump u hu => exact absurd (other (ports_of_target hu).2) ho

/-! ### Every turn keeps the invariant -/

theorem fetch_congr {s t : State} (hprog : t.prog = s.prog) (hpc : t.pc = s.pc) : t.fetch = s.fetch := by
  unfold State.fetch
  rw [hprog, hpc]

/-- R101 to R107: the fetched instruction keeps the invariant, clause by clause. -/
theorem ExecCase.inv {i : Instr} {s t : State} (h : ExecCase i s t) (hs : s.Inv) (hr : s.status.state = .running)
    (hf : s.fetch = some i) : t.Inv where
  params := by rw [h.surroundings.cfg]; exact hs.params
  status := h.status_legal hs.status
  errInfo ht := by rw [(h.errInfo_of_no_error ht).1]; exact hs.errInfo (by simp [hr])
  stack := h.stack_fits hs.stack
  progLength := by rw [h.surroundings.prog, h.surroundings.cfg]; exact hs.progLength
  progWf := by rw [h.surroundings.prog]; exact hs.progWf
  idle ht := absurd ht (h.not_idle hr)
  inPos ht := h.hasBytes ht (hs.inPos (by simp [hr]))
  lineBuf hl := by
    obtain ⟨rfl, hst, hpc, hline⟩ := h.line_in_progress hs hf hl
    exact ⟨hst ▸ hr, (fetch_congr h.surroundings.prog hpc).trans hf, hline⟩
  outTaken ho := by
    obtain ⟨hst, hpc, bytes, hheld⟩ := h.write_in_progress hs hf ho
    exact ⟨hst ▸ hr, i, bytes, (fetch_congr h.surroundings.prog hpc).trans hf, hheld⟩

/-- R101, R205: past the end of P no transfer is in progress, and the clean halt keeps the invariant. -/
theorem State.Inv.haltClean_pcOverrun {s : State} (hs : s.Inv) (hr : s.status.state = .running)
    (hf : s.fetch = none) : (s.haltClean .pcOverrun).Inv where
  params := hs.params
  status := rfl
  errInfo _ := hs.errInfo (by simp [hr])
  stack := hs.stack
  progLength := hs.progLength
  progWf := hs.progWf
  idle ht := by cases ht
  inPos _ := hs.inPos (by simp [hr])
  lineBuf hl := absurd (hs.lineBuf_eq_nil (by simp [hf])) hl
  outTaken ho := absurd (hs.outTaken_eq_zero (by simp [hf])) ho

theorem State.Inv.engineTurn {s t : State} (hs : s.Inv) (h : engineTurn s = .next t) : t.Inv := by
  rcases engineTurn_cases h with ⟨-, rfl⟩ | ⟨hr, ⟨hf, rfl⟩ | ⟨i, hf, hc⟩⟩
  · exact hs
  · exact hs.haltClean_pcOverrun hr hf
  · exact hc.inv hs hr hf

/-- R201: an error entry with a legal STATUS keeps the invariant. -/
theorem State.Inv.enterError {s : State} (hs : s.Inv) {e : Err} {sub : FmtSub} {info : Word}
    (hst : (Status.error e sub).legal = true) : (s.enterError e sub info).Inv where
  params := hs.params
  status := hst
  errInfo ht := absurd rfl ht
  stack := stackFits_boundStack _ _
  progLength := hs.progLength
  progWf := hs.progWf
  idle ht := by cases ht
  inPos ht := absurd rfl ht
  lineBuf hl := absurd rfl hl
  outTaken ho := absurd rfl ho

/-- R231: a load of a program that the loader gives keeps the invariant. -/
theorem State.Inv.install {s : State} (hs : s.Inv) (hidle : s.status.state = .idle) {prog : List Instr}
    (hlen : prog.length ≤ s.cfg.progCap) (hwf : ∀ i ∈ prog, i.wf = true) : (s.install prog).Inv where
  params := hs.params
  status := rfl
  errInfo _ := rfl
  stack := stackFits_le hs.stack (Nat.zero_le _)
  progLength := hlen
  progWf := hwf
  idle ht := by cases ht
  inPos _ k hk := absurd hk (Nat.not_lt_zero k)
  lineBuf hl := absurd (hs.lineBuf_eq_nil (by simp [hidle])) hl
  outTaken ho := absurd (hs.outTaken_eq_zero (by simp [hidle])) ho

theorem State.Inv.hostLoad {s t : State} (hs : s.Inv) {image : List Byte} (h : s.hostLoad image = .next t) : t.Inv := by
  rcases hostLoad_cases h with ⟨-, rfl⟩ | ⟨hidle, ⟨prog, hlen, hwf, rfl⟩ | ⟨sub, offset, hsub, rfl⟩⟩
  · exact hs
  · exact hs.install hidle hlen hwf
  · exact hs.enterError (legal_error_format hsub)

/-- R230: the reset request keeps the invariant. -/
theorem State.Inv.hostReset {s : State} (hs : s.Inv) : s.hostReset.Inv where
  params := hs.params
  status := rfl
  errInfo _ := rfl
  stack := stackFits_le hs.stack (Nat.zero_le _)
  progLength := Nat.zero_le _
  progWf := by simp
  idle _ := ⟨rfl, rfl, rfl, rfl⟩
  inPos _ k hk := absurd hk (Nat.not_lt_zero k)
  lineBuf hl := absurd rfl hl
  outTaken ho := absurd rfl ho

/-- The engine's own state and the accepted output are the same in both, and the second has every input byte of the first:
what the schedule and further answers of the ports leave alone (R50, R53, R55). -/
structure SameEngine (s t : State) : Prop where
  prog : t.prog = s.prog
  stack : t.stack = s.stack
  pc : t.pc = s.pc
  status : t.status = s.status
  errInfo : t.errInfo = s.errInfo
  inPos : t.inPos = s.inPos
  lineBuf : t.lineBuf = s.lineBuf
  outTaken : t.outTaken = s.outTaken
  output : t.output = s.output
  cfg : t.cfg = s.cfg
  inByteAt : ∀ k, (s.inByteAt k).isSome → t.inByteAt k = s.inByteAt k

theorem SameEngine.inv {s t : State} (h : SameEngine s t) (hs : s.Inv) : t.Inv where
  params := by rw [h.cfg]; exact hs.params
  status := by rw [h.status]; exact hs.status
  errInfo := by rw [h.status, h.errInfo]; exact hs.errInfo
  stack := by rw [h.cfg, h.stack]; exact hs.stack
  progLength := by rw [h.prog, h.cfg]; exact hs.progLength
  progWf := by rw [h.prog]; exact hs.progWf
  idle := by rw [h.status, h.prog, h.stack, h.pc, h.inPos]; exact hs.idle
  inPos := by
    rw [h.status, h.inPos]
    intro ht k hk
    have hb := hs.inPos ht k hk
    rwa [h.inByteAt k hb]
  lineBuf := by
    rw [h.lineBuf, h.status, h.inPos, fetch_congr h.prog h.pc]
    intro hl
    obtain ⟨hr, hf, hn, first, hp, hb⟩ := hs.lineBuf hl
    refine ⟨hr, hf, hn, first, hp, fun j hj => ?_⟩
    rw [h.inByteAt _ (by simp [← hb j hj, hj]), hb j hj]
  outTaken := by
    rw [h.outTaken, h.status, h.output, fetch_congr h.prog h.pc]
    intro ho
    obtain ⟨hr, i, bytes, hf, hp, hheld⟩ := hs.outTaken ho
    exact ⟨hr, i, bytes, hf, (pendingWrite_congr h.stack).trans hp, hheld⟩

theorem sameEngine_events (s : State) (rest : List HostEvent) : SameEngine s { s with events := rest } :=
  ⟨rfl, rfl, rfl, rfl, rfl, rfl, rfl, rfl, rfl, rfl, fun _ _ => rfl⟩

theorem sameEngine_answerInput (s : State) (bytes : List Byte) (fin : InEnd) :
    SameEngine s (s.answerInput bytes fin) := by
  constructor
  case inByteAt => exact answerInput_inByteAt s bytes fin
  all_goals simp

theorem sameEngine_answerOutput (s : State) (replies : List OutReply) (fin : OutEnd) :
    SameEngine s (s.answerOutput replies fin) :=
  ⟨rfl, rfl, rfl, rfl, rfl, rfl, rfl, rfl, rfl, rfl, fun _ _ => rfl⟩

/-- Settles O22: by the kind of turn. -/
theorem stepKeepsTheInvariant : Obligations.StepKeepsTheInvariant := by
  intro s t hs h
  obtain ⟨rest, hturn⟩ := step_cases h
  have hs' : State.Inv { s with events := rest } := (sameEngine_events s rest).inv hs
  rcases hturn with ⟨-, ht⟩ | ⟨-, rfl⟩ | ⟨image, -, hl⟩ | ⟨bytes, fin, -, rfl⟩ | ⟨replies, fin, -, rfl⟩
  · exact hs'.engineTurn ht
  · exact hs'.hostReset
  · exact hs'.hostLoad hl
  · exact (sameEngine_answerInput _ bytes fin).inv hs'
  · exact (sameEngine_answerOutput _ replies fin).inv hs'

/-- Settles O21: the values of R30, clause by clause; the default parameters are legal by evaluation. -/
theorem invariantHoldsAtReset : Obligations.InvariantHoldsAtReset where
  params := by decide
  status := rfl
  errInfo _ := rfl
  stack := rfl
  progLength := Nat.zero_le _
  progWf := by simp [State.reset]
  idle _ := ⟨rfl, rfl, rfl, rfl⟩
  inPos _ k hk := absurd hk (Nat.not_lt_zero k)
  lineBuf hl := absurd rfl hl
  outTaken ho := absurd rfl ho

end Sys2Proof.Machine
end

section
/-! The family of 20_memory.md: what every turn keeps of the output, of the parameters and of an ended input (R46, R50, R54). -/

namespace Sys2Proof.Machine

/-! ### Accepted output and the parameters -/

/-- R54: what an instruction does to the output is to add to it. -/
theorem ExecCase.output_prefix {i : Instr} {s t : State} (h : ExecCase i s t) : s.output <+: t.output := by
  cases h with
  | written => exact List.prefix_append _ _
  | writeError => exact List.prefix_append _ _
  | writeWait => exact List.prefix_append _ _
  | _ => exact List.prefix_rfl

theorem engineTurn_output {s t : State} (h : engineTurn s = .next t) : s.output <+: t.output ∧ t.cfg = s.cfg := by
  rcases engineTurn_cases h with ⟨-, rfl⟩ | ⟨-, ⟨-, rfl⟩ | ⟨i, -, hc⟩⟩
  · exact ⟨List.prefix_rfl, rfl⟩
  · exact ⟨List.prefix_rfl, rfl⟩
  · exact ⟨hc.output_prefix, hc.surroundings.cfg⟩

/-- R231: a load writes no output, no parameter and nothing of the input. -/
theorem hostLoad_ports {s t : State} {image : List Byte} (h : s.hostLoad image = .next t) :
    t.output = s.output ∧ t.cfg = s.cfg ∧ t.inEnd = s.inEnd ∧ t.input = s.input := by
  rcases hostLoad_cases h with ⟨-, rfl⟩ | ⟨-, ⟨prog, -, -, rfl⟩ | ⟨sub, offset, -, rfl⟩⟩
  · exact ⟨rfl, rfl, rfl, rfl⟩
  · exact ⟨rfl, rfl, rfl, rfl⟩
  · exact ⟨rfl, rfl, rfl, rfl⟩

/-- Settles O24: by the kind of turn; of all turns only an output instruction's changes the output. -/
theorem outputOnlyGrowsAndParametersStay : Obligations.OutputOnlyGrowsAndParametersStay := by
  intro s t h
  obtain ⟨rest, ⟨-, ht⟩ | ⟨-, rfl⟩ | ⟨image, -, hl⟩ | ⟨bytes, fin, -, rfl⟩ | ⟨replies, fin, -, rfl⟩⟩ := step_cases h
  · exact (engineTurn_output ht :)
  · exact ⟨List.prefix_rfl, rfl⟩
  · obtain ⟨hout, hcfg, -⟩ := hostLoad_ports hl
    exact ⟨by rw [hout], hcfg⟩
  · simp
  · exact ⟨List.prefix_rfl, rfl⟩

/-! ### The terminal of the input -/

theorem engineTurn_input {s t : State} (h : engineTurn s = .next t) : t.inEnd = s.inEnd ∧ t.input = s.input := by
  rcases engineTurn_cases h with ⟨-, rfl⟩ | ⟨-, ⟨-, rfl⟩ | ⟨i, -, hc⟩⟩
  · exact ⟨rfl, rfl⟩
  · exact ⟨rfl, rfl⟩
  · exact ⟨hc.surroundings.inEnd, hc.surroundings.input⟩

/-- Settles O51: by the kind of turn; further answers are the only turn but the reset that could change the input, and a
port that has ended takes none. -/
theorem inputTerminalIsSticky : Obligations.InputTerminalIsSticky := by
  intro s t hend hreset h
  obtain ⟨rest, ⟨-, ht⟩ | ⟨he, -⟩ | ⟨image, -, hl⟩ | ⟨bytes, fin, -, rfl⟩ | ⟨replies, fin, -, rfl⟩⟩ := step_cases h
  · exact (engineTurn_input ht :)
  · exact absurd he (hreset rest)
  · exact (hostLoad_ports hl).2.2
  · rw [State.answerInput_of_terminal { s with events := rest } bytes fin hend]
    exact ⟨rfl, rfl⟩
  · exact ⟨rfl, rfl⟩

/-! ### The output port -/

/-- Settles O41: by the first reply that is an answer, and where there is none by what the port does after its replies. -/
theorem outputPortAnswersAreExhaustive : Obligations.OutputPortAnswersAreExhaustive := by
  intro s
  rcases replies_cases s.outReplies with ⟨ks, hr⟩ | ⟨ks, left, hr⟩ | ⟨ks, left, hr⟩
  · cases he : s.outEnd with
    | ok => exact .inl ⟨[], ks, .inr ⟨hr, rfl, he⟩⟩
    | ioerr => exact .inr (.inl ⟨ks.sum, [], ks, rfl, .inr ⟨hr, rfl, he⟩⟩)
    | stall => exact .inr (.inr ⟨ks.sum, ks, rfl, hr, he⟩)
  · exact .inl ⟨left, ks, .inl hr⟩
  · exact .inr (.inl ⟨ks.sum, left, ks, rfl, .inl hr⟩)

end Sys2Proof.Machine
end

section
/-! The input sequence and its one read position (R50 to R52). -/

namespace Sys2Proof.Machine

/-! ### The bytes of the sequence -/

/-- R52: a repeated block over and over; its place is always one of the block. -/
theorem Endless.byte_repeating (first : Byte) (rest : List Byte) (k : Nat) :
    (Endless.repeating first rest).byte k =
      (first :: rest)[k % (first :: rest).length]'(Nat.mod_lt _ (by simp)) := by
  have hk : k % (rest.length + 1) < (first :: rest).length := Nat.mod_lt _ (Nat.succ_pos _)
  simp only [Endless.byte, List.getElem?_eq_getElem hk, Option.getD_some]
  rfl

/-- R52: where the sequence is not infinite, it ends with the listed bytes. -/
theorem inByteAt_eq_none {s : State} (he : ∀ x, s.inEnd ≠ .endless x) {k : Nat} (hk : s.input.length ≤ k) :
    s.inByteAt k = none := by
  rw [inByteAt_of_ge s k hk]
  cases h : s.inEnd with
  | endless x => exact absurd h (he x)
  | _ => rfl

/-- R52: past the listed bytes an infinite sequence goes on with its own. -/
theorem inByteAt_endless {s : State} {x : Endless} (he : s.inEnd = .endless x) (k : Nat) :
    s.inByteAt (s.input.length + k) = some (x.byte k) := by
  rw [inByteAt_of_ge s _ (Nat.le_add_right _ _), he, Nat.add_sub_cancel_left]

theorem inRead_of_byte {s : State} {b : Byte} (h : s.inByteAt s.inPos = some b) :
    s.inRead = (.byte b, s.setInput (s.inPos + 1) s.lineBuf) := by
  rcases inRead_cases s with ⟨b', hb, hread⟩ | ⟨hnone, -⟩
  · rw [hread, Option.some.inj (hb.symm.trans h)]
  · simp [hnone] at h

theorem inRead_of_none {s : State} (h : s.inByteAt s.inPos = none) :
    (s.inEnd = .eof → s.inRead = (.eof, s)) ∧ (s.inEnd = .ioerr → s.inRead = (.ioerr, s)) ∧
      (s.inEnd = .stall → s.inRead = (.waiting, s)) := by
  rcases inRead_cases s with ⟨b, hb, -⟩ | ⟨-, -, ⟨he, hread⟩ | ⟨he, hread⟩ | ⟨he, hread⟩⟩
  · simp [h] at hb
  all_goals simp [he, hread]

/-- Settles O55: by what `inRead` answers at a byte and where there is none, and by the places of the sequence. -/
theorem inReadAnswersTheInputSequence : Obligations.InReadAnswersTheInputSequence := fun s =>
  ⟨fun _ hb => inRead_of_byte hb, inRead_of_none,
    fun k hk => by rw [inByteAt_of_lt s k hk, List.getElem?_eq_getElem hk],
    fun _ k he => inByteAt_endless he k, fun he _ hk => inByteAt_eq_none he hk, Endless.byte_repeating⟩

/-! ### The bytes that a read consumes -/

/-- R51: `bs` is what the sequence holds from place `pos` on. -/
def State.BytesFrom (s : State) (pos : Nat) (bs : List Byte) : Prop :=
  ∀ j < bs.length, bs[j]? = s.inByteAt (pos + j)

theorem State.BytesFrom.nil (s : State) (pos : Nat) : s.BytesFrom pos [] := by simp [State.BytesFrom]

theorem State.BytesFrom.append {s : State} {pos : Nat} {l bs : List Byte} (h : s.BytesFrom pos l)
    (hbs : s.BytesFrom (pos + l.length) bs) : s.BytesFrom pos (l ++ bs) := by
  intro j hj
  by_cases hjl : j < l.length
  · rw [List.getElem?_append_left hjl, h j hjl]
  · obtain ⟨k, rfl⟩ := Nat.exists_eq_add_of_le (Nat.not_lt.mp hjl)
    rw [List.getElem?_append_right (Nat.le_add_right _ _), Nat.add_sub_cancel_left, ← Nat.add_assoc]
    exact hbs k (by simp at hj; omega)

theorem State.BytesFrom.singleton {s : State} {pos : Nat} {b : Byte} (h : s.inByteAt pos = some b) :
    s.BytesFrom pos [b] := by simp [State.BytesFrom, h]

theorem State.BytesFrom.unread (s : State) : s.BytesFrom s.inPos s.unread := unread_getElem? s

/-- A listed line and its terminator, read off the sequence. -/
theorem bytesFrom_of_unread {s : State} {line rest : List Byte} {b : Byte} (h : s.unread = line ++ b :: rest) :
    s.BytesFrom s.inPos line ∧ s.inByteAt (s.inPos + line.length) = some b := by
  refine ⟨fun j hj => ?_, ?_⟩
  · rw [← unread_getElem? s j (by simp [h]; omega), h, List.getElem?_append_left hj]
  · rw [← unread_getElem? s line.length (by simp [h]), h]
    simp

/-- R151: what an In that leaves the engine running has consumed: its line and the terminator, or the bytes so far, or the
line that the end of the input closes. -/
theorem ExecCase.inLine_consumes {s t : State} (h : ExecCase .inLine s t) (ht : t.status.state = .running) :
    ∃ bs : List Byte, newline ∉ bs ∧ s.BytesFrom s.inPos bs ∧
      ((s.inByteAt (s.inPos + bs.length) = some newline ∧ t.inPos = s.inPos + bs.length + 1 ∧ t.lineBuf = []) ∨
        (readGoesOn .inLine s ∧ t.inPos = s.inPos + bs.length ∧ t.lineBuf = s.lineBuf ++ bs ∧ t.pc = s.pc) ∨
        (s.inByteAt (s.inPos + bs.length) = none ∧ s.inEnd = .eof ∧ t.inPos = s.inPos + bs.length ∧
          t.lineBuf = [])) := by
  cases h with
  | raise => cases ht
  | writeError => cases ht
  | eof => cases ht
  | line v p hi hf hp =>
    rcases hp with ⟨line, hn, hu, rfl⟩ | ⟨hn, rfl, he⟩ | ⟨hn, rfl, hb⟩
    · obtain ⟨hline, hb⟩ := bytesFrom_of_unread hu
      exact ⟨line, hn, hline, .inl ⟨hb, rfl, rfl⟩⟩
    · have hnone := inByteAt_eq_none (by simp [he]) (unread_end s)
      exact ⟨s.unread, hn, .unread s, .inr (.inr ⟨hnone, he, rfl, rfl⟩)⟩
    · exact ⟨s.unread, hn, .unread s, .inl ⟨hb, rfl, rfl⟩⟩
  | lineWait hi hw => exact ⟨s.unread, hw.1, .unread s, .inr (.inl ⟨.inl (.inl ⟨rfl, hw⟩), rfl, rfl, rfl⟩)⟩
  | lineMore b hi hw =>
    obtain ⟨hn, hb, hne⟩ := hw
    refine ⟨s.unread ++ [b], by simp [hn, hne.symm], (State.BytesFrom.unread s).append (.singleton hb),
      .inr (.inl ⟨.inr ⟨rfl, b, hn, hb, hne⟩, ?_, ?_, rfl⟩)⟩
    · simp [Nat.add_assoc]
    · simp
  | byte b hi => cases hi
  | byteWait hi => cases hi
  | written bytes l hp => cases hp
  | writeWait bytes k hp => cases hp
  | fallthrough l hl hr => cases hr
  | jump u hu => cases hu

theorem zeroExtend_eq_setWidth (b : Byte) : zeroExtend b = b.setWidth 64 := by
  apply BitVec.eq_of_toNat_eq
  rw [zeroExtend_toNat, BitVec.toNat_setWidth, Nat.mod_eq_of_lt (by omega)]

/-- R153: an InByte that leaves the engine running has pushed the byte at the read position, or waits unchanged. -/
theorem ExecCase.inByte_consumes {s t : State} (h : ExecCase .inByte s t) (ht : t.status.state = .running) :
    (∃ b, s.inByteAt s.inPos = some b ∧ t.inPos = s.inPos + 1 ∧ t.stack = s.stack ++ [b.setWidth 64]) ∨
      (byteWaits s ∧ t = s) := by
  cases h with
  | raise => cases ht
  | writeError => cases ht
  | eof => cases ht
  | byte b hi hf hb => exact .inl ⟨b, hb, rfl, by rw [← zeroExtend_eq_setWidth]; rfl⟩
  | byteWait hi hw => exact .inr ⟨hw, rfl⟩
  | line v p hi => cases hi
  | lineWait hi => cases hi
  | lineMore b hi => cases hi
  | written bytes l hp => cases hp
  | writeWait bytes k hp => cases hp
  | fallthrough l hl hr => cases hr
  | jump u hu => cases hu

/-- An instruction changes no byte of the sequence. -/
theorem ExecCase.inByteAt {i : Instr} {s t : State} (h : ExecCase i s t) (k : Nat) : t.inByteAt k = s.inByteAt k :=
  inByteAt_congr h.surroundings.input h.surroundings.inEnd k

/-- Settles O47: both reads by their cases among those of `exec_cases`. -/
theorem readsShareOnePosition : Obligations.ReadsShareOnePosition := by
  refine ⟨fun s t _ h ht => ?_, fun s t _ h ht => ?_⟩
  · have hc := exec_cases _ s t h
    exact ⟨hc.inByteAt, hc.inLine_consumes ht⟩
  · have hc := exec_cases _ s t h
    exact ⟨hc.inByteAt, hc.inByte_consumes ht⟩

end Sys2Proof.Machine
end

section
/-! In and InByte by what the input port has for them (R50, R151, R153), and later answers of the port. -/

namespace Sys2Proof.Machine

/-! ### What a read does, by the bytes that are there -/

/-- R151: a listed line is consumed with its terminator and is complete. -/
theorem exec_inLine_of_line {s : State} {line rest : List Byte} (hn : newline ∉ line)
    (hu : s.unread = line ++ newline :: rest) :
    exec .inLine s = concludeLine (s.setInput (s.inPos + line.length + 1) (s.lineBuf ++ line)) := by
  show execInLine s = _
  rw [execInLine, readLine_of_line s line rest hn hu]

/-- R52, R151: with no terminator listed, the next byte of an infinite sequence ends the line or lengthens it. -/
theorem exec_inLine_of_byte {s : State} {b : Byte} (hn : newline ∉ s.unread)
    (hb : s.inByteAt (s.inPos + s.unread.length) = some b) :
    exec .inLine s =
      if b = newline then concludeLine (s.setInput (s.inPos + s.unread.length + 1) (s.lineBuf ++ s.unread))
      else .next (s.setInput (s.inPos + s.unread.length + 1) (s.lineBuf ++ s.unread ++ [b])) := by
  show execInLine s = _
  have hread := inRead_of_byte (s := s.setInput (s.inPos + s.unread.length) (s.lineBuf ++ s.unread)) hb
  simp only [execInLine, readLine_of_not_mem s hn, hread, conclude_wait]
  rfl

/-- R107, R151: with no terminator listed and no answer yet, In consumes the bytes that are there and waits. -/
theorem exec_inLine_of_waits {s : State} (hw : lineWaits s) :
    exec .inLine s = .next (s.setInput (s.inPos + s.unread.length) (s.lineBuf ++ s.unread)) := by
  obtain ⟨hn, he⟩ := hw
  have hnone : s.inByteAt (s.inPos + s.unread.length) = none := inByteAt_eq_none (by simp [he]) (unread_end s)
  obtain ⟨-, -, hread⟩ :=
    inRead_of_none (s := s.setInput (s.inPos + s.unread.length) (s.lineBuf ++ s.unread)) hnone
  show execInLine s = _
  simp only [execInLine, readLine_of_not_mem s hn, hread he, conclude_wait]

/-- R153: a byte that is there is pushed. -/
theorem exec_inByte_of_byte {s : State} {b : Byte} (hb : s.inByteAt s.inPos = some b) :
    exec .inByte s = concludePush (zeroExtend b) (s.setInput (s.inPos + 1) s.lineBuf) := by
  show execInByte s = _
  rw [execInByte, inRead_of_byte hb]

/-! ### The listed bytes after further answers -/

/-- R50: further answers stand after the bytes that are not consumed yet. -/
theorem answerInput_unread {s : State} (he : s.inEnd = .stall) (hp : s.inPos ≤ s.input.length) (bytes : List Byte)
    (fin : InEnd) : (s.answerInput bytes fin).unread = s.unread ++ bytes := by
  rw [State.answerInput_of_stall s bytes fin he]
  exact List.drop_append_of_le_length hp

theorem inPos_le_of_unread {s : State} (h : s.unread ≠ []) : s.inPos ≤ s.input.length := by
  by_contra hc
  exact h (List.drop_eq_nil_of_le (by omega))

/-! ### Instructions as checks in a row -/

/-- R105, R201: a check of an instruction: `e` is raised where it gives nothing, else `f` goes on with its value. -/
def orRaise {α : Type} (check : Option α) (e : Err) (s : State) (f : α → Host.Outcome State Fault Refusal) :
    Host.Outcome State Fault Refusal :=
  match check with
  | none => conclude (.raise e) s
  | some x => f x

@[simp] theorem orRaise_none {α : Type} (e : Err) (s : State) (f : α → Host.Outcome State Fault Refusal) :
    orRaise none e s f = conclude (.raise e) s := rfl

@[simp] theorem orRaise_some {α : Type} (x : α) (e : Err) (s : State) (f : α → Host.Outcome State Fault Refusal) :
    orRaise (some x) e s f = f x := rfl

theorem concludeLine_eq (s : State) :
    concludeLine s =
      orRaise (parseU64 s.cfg.inTrim s.lineBuf) .parse s fun v => concludePush v (s.setLineBuf []) := by
  unfold concludeLine
  cases parseU64 s.cfg.inTrim s.lineBuf <;> rfl

theorem exec_copy_eq (p : Word) (s : State) :
    exec (.copy p) s = orRaise (s.operand p) .bounds s fun q => concludePush q.2 s := by
  show execCopy p s = _
  cases h : s.operand p <;> simp [execCopy, h]

theorem exec_out_eq (p : Word) (s : State) :
    exec (.out p) s = orRaise (s.operand p) .bounds s fun q => concludeWrite (decText q.2 ++ [newline]) s := by
  show execOut p s = _
  cases h : s.operand p <;> simp [execOut, h]

theorem exec_outByte_eq (p : Word) (s : State) :
    exec (.outByte p) s =
      orRaise (s.operand p) .bounds s fun q =>
      orRaise (byteChecked q.2) .arithmetic s fun b => concludeWrite [b] s := by
  show execOutByte p s = _
  cases h : s.operand p with
  | none => simp [execOutByte, h]
  | some q => cases hb : byteChecked q.2 <;> simp [execOutByte, h, hb]

theorem exec_dec_eq (p : Word) (s : State) :
    exec (.dec p) s =
      orRaise (s.operand p) .bounds s fun q =>
      orRaise (decChecked q.2) .arithmetic s fun r => conclude .fallthrough (s.writeSlot q.1 r) := by
  show execDec p s = _
  cases h : s.operand p with
  | none => simp [execDec, h]
  | some q => cases hd : decChecked q.2 <;> simp [execDec, h, hd]

theorem exec_inc_eq (p : Word) (s : State) :
    exec (.inc p) s =
      orRaise (s.operand p) .bounds s fun q =>
      orRaise (incChecked q.2) .arithmetic s fun r => conclude .fallthrough (s.writeSlot q.1 r) := by
  show execInc p s = _
  cases h : s.operand p with
  | none => simp [execInc, h]
  | some q => cases hi : incChecked q.2 <;> simp [execInc, h, hi]

theorem branchOn_eq (test : Word → Word → Bool) (a b t : Word) (s : State) :
    branchOn test a b t s =
      orRaise (s.operand a) .bounds s fun p =>
      orRaise (s.operand b) .bounds s fun q =>
      if test p.2 q.2 then conclude (.jump t) s else conclude .fallthrough s := by
  cases ha : s.operand a with
  | none => simp [branchOn, ha]
  | some p => cases hb : s.operand b <;> simp [branchOn, ha, hb]

theorem exec_add_eq (a b : Word) (s : State) :
    exec (.add a b) s =
      orRaise (s.operand a) .bounds s fun p =>
      orRaise (s.operand b) .bounds s fun q =>
      if p.1 = q.1 then conclude (.raise .operandAlias) s
      else orRaise (addChecked s.cfg.addWrap p.2 q.2) .arithmetic s fun r =>
        conclude .fallthrough (s.replacePair p.1 q.1 r) := by
  show execAdd a b s = _
  cases ha : s.operand a with
  | none => simp [execAdd, ha]
  | some p =>
    cases hb : s.operand b with
    | none => simp [execAdd, ha, hb]
    | some q => cases hs : addChecked s.cfg.addWrap p.2 q.2 <;> simp [execAdd, ha, hb, hs]

/-! ### Everything but the reads commutes with a change of the input -/

/-- The state with another input sequence. -/
def State.withInput (s : State) (input : List Byte) (inEnd : InEnd) : State :=
  { s with input := input, inEnd := inEnd }

/-- The same of what an instruction answers. -/
def outcomeWithInput (input : List Byte) (inEnd : InEnd) (o : Host.Outcome State Fault Refusal) :
    Host.Outcome State Fault Refusal :=
  match o with
  | .next s => .next (s.withInput input inEnd)
  | .fault r => .fault r
  | .refused r => .refused r

theorem answerInput_eq_withInput {s : State} (he : s.inEnd = .stall) (bytes : List Byte) (fin : InEnd) :
    s.answerInput bytes fin = s.withInput (s.input ++ bytes) fin :=
  State.answerInput_of_stall s bytes fin he

section
variable (l : List Byte) (fin : InEnd) (s : State)

theorem conclude_withInput (e : Ending) :
    conclude e (s.withInput l fin) = outcomeWithInput l fin (conclude e s) := by
  cases e <;> rfl

/-- A check that does not look at the input. -/
theorem orRaise_withInput {α : Type} (check : Option α) (e : Err) {f g : α → Host.Outcome State Fault Refusal}
    (h : ∀ x, g x = outcomeWithInput l fin (f x)) :
    orRaise check e (s.withInput l fin) g = outcomeWithInput l fin (orRaise check e s f) := by
  cases check with
  | none => exact conclude_withInput l fin s (.raise e)
  | some x => exact h x

theorem concludePush_withInput (v : Word) :
    concludePush v (s.withInput l fin) = outcomeWithInput l fin (concludePush v s) := by
  by_cases hf : s.full
  · rw [concludePush_of_full s v hf, concludePush_of_full (s.withInput l fin) v hf]
    rfl
  · rw [concludePush_of_not_full s v hf, concludePush_of_not_full (s.withInput l fin) v hf]
    rfl

theorem concludeLine_withInput :
    concludeLine (s.withInput l fin) = outcomeWithInput l fin (concludeLine s) := by
  rw [concludeLine_eq, concludeLine_eq]
  exact orRaise_withInput l fin s _ _ fun v => concludePush_withInput l fin (s.setLineBuf []) v

theorem concludeWrite_withInput (bytes : List Byte) :
    concludeWrite bytes (s.withInput l fin) = outcomeWithInput l fin (concludeWrite bytes s) := by
  cases hw : (offer s.outEnd (bytes.drop s.outTaken) s.outReplies).fin with
  | ok =>
    rw [concludeWrite_of_ok bytes s hw, concludeWrite_of_ok bytes (s.withInput l fin) hw]
    rfl
  | ioerr =>
    rw [concludeWrite_of_ioerr bytes s hw, concludeWrite_of_ioerr bytes (s.withInput l fin) hw]
    rfl
  | waiting =>
    rw [concludeWrite_of_waiting bytes s hw, concludeWrite_of_waiting bytes (s.withInput l fin) hw]
    rfl

theorem branchOn_withInput (test : Word → Word → Bool) (a b t : Word) :
    branchOn test a b t (s.withInput l fin) = outcomeWithInput l fin (branchOn test a b t s) := by
  rw [branchOn_eq, branchOn_eq]
  refine orRaise_withInput l fin s _ _ fun p => orRaise_withInput l fin s _ _ fun q => ?_
  split <;> exact conclude_withInput l fin s _

theorem exec_add_withInput (a b : Word) :
    exec (.add a b) (s.withInput l fin) = outcomeWithInput l fin (exec (.add a b) s) := by
  rw [exec_add_eq, exec_add_eq]
  refine orRaise_withInput l fin s _ _ fun p => orRaise_withInput l fin s _ _ fun q => ?_
  split
  · exact conclude_withInput l fin s _
  · exact orRaise_withInput l fin s _ _ fun r => conclude_withInput l fin (s.replacePair p.1 q.1 r) _

/-- R50, R54: an instruction that does not read the input port does the same on any input. -/
theorem exec_withInput {i : Instr} (hr : i.readsInput = false) :
    exec i (s.withInput l fin) = outcomeWithInput l fin (exec i s) := by
  cases i with
  | inLine => cases hr
  | inByte => cases hr
  | push v => exact concludePush_withInput l fin s v
  | outStr str => exact concludeWrite_withInput l fin s _
  | jmp t => exact conclude_withInput l fin s (.jump t)
  | add a b => exact exec_add_withInput l fin s a b
  | gt a b t => exact branchOn_withInput l fin s _ a b t
  | eq a b t => exact branchOn_withInput l fin s _ a b t
  | out p =>
    rw [exec_out_eq, exec_out_eq]
    exact orRaise_withInput l fin s _ _ fun q => concludeWrite_withInput l fin s _
  | copy p =>
    rw [exec_copy_eq, exec_copy_eq]
    exact orRaise_withInput l fin s _ _ fun q => concludePush_withInput l fin s _
  | dec p =>
    rw [exec_dec_eq, exec_dec_eq]
    exact orRaise_withInput l fin s _ _ fun q =>
      orRaise_withInput l fin s _ _ fun r => conclude_withInput l fin (s.writeSlot q.1 r) _
  | inc p =>
    rw [exec_inc_eq, exec_inc_eq]
    exact orRaise_withInput l fin s _ _ fun q =>
      orRaise_withInput l fin s _ _ fun r => conclude_withInput l fin (s.writeSlot q.1 r) _
  | outByte p =>
    rw [exec_outByte_eq, exec_outByte_eq]
    exact orRaise_withInput l fin s _ _ fun q =>
      orRaise_withInput l fin s _ _ fun b => concludeWrite_withInput l fin s _

end

/-- R50: an In whose line is listed does the same with further answers after it. -/
theorem exec_inLine_withInput {s : State} {bytes : List Byte} {fin : InEnd} (he : s.inEnd = .stall)
    (hm : newline ∈ s.unread) :
    exec .inLine (s.withInput (s.input ++ bytes) fin) =
      outcomeWithInput (s.input ++ bytes) fin (exec .inLine s) := by
  obtain ⟨line, rest, hn, hu⟩ := exists_line_of_mem _ hm
  have hu' : (s.withInput (s.input ++ bytes) fin).unread = line ++ newline :: (rest ++ bytes) := by
    rw [← answerInput_eq_withInput he, answerInput_unread he (inPos_le_of_unread (by simp [hu])), hu,
      List.append_assoc, List.cons_append]
  rw [exec_inLine_of_line hn hu, exec_inLine_of_line hn hu']
  exact concludeLine_withInput _ fin (s.setInput (s.inPos + line.length + 1) (s.lineBuf ++ line))

/-- R50: an InByte whose byte is listed does the same with further answers after it. -/
theorem exec_inByte_withInput {s : State} {bytes : List Byte} {fin : InEnd} {b : Byte} (he : s.inEnd = .stall)
    (hb : s.inByteAt s.inPos = some b) :
    exec .inByte (s.withInput (s.input ++ bytes) fin) =
      outcomeWithInput (s.input ++ bytes) fin (exec .inByte s) := by
  have hb' : (s.withInput (s.input ++ bytes) fin).inByteAt s.inPos = some b := by
    rw [← answerInput_eq_withInput he, answerInput_inByteAt s bytes fin _ (by simp [hb]), hb]
  rw [exec_inByte_of_byte hb, exec_inByte_of_byte hb']
  exact concludePush_withInput _ fin (s.setInput (s.inPos + 1) s.lineBuf) _

/-- R50, R52: an instruction that does not wait for the port does the same with further answers there. -/
theorem exec_answerInput {i : Instr} {s : State} (he : s.inEnd = .stall) (hw : ¬ inputWaits i s) (bytes : List Byte)
    (fin : InEnd) :
    exec i (s.answerInput bytes fin) = outcomeWithInput (s.input ++ bytes) fin (exec i s) := by
  rw [answerInput_eq_withInput he]
  cases i with
  | inLine =>
    refine exec_inLine_withInput he ?_
    by_contra hm
    exact hw (.inl ⟨rfl, hm, he⟩)
  | inByte =>
    rcases inRead_cases s with ⟨b, hb, -⟩ | ⟨-, hu, -⟩
    · exact exec_inByte_withInput he hb
    · exact absurd (.inr ⟨rfl, hu, he⟩) hw
  | _ => exact exec_withInput _ fin s rfl

/-- Settles O48: the instruction is the same function of the rest of the state, and it leaves the port as it is. -/
theorem laterAnswersChangeNoFinishedRead : Obligations.LaterAnswersChangeNoFinishedRead := by
  intro i s t bytes fin he hw h
  obtain ⟨-, -, -, hinput, hinEnd, -⟩ := (exec_cases i s t h).surroundings
  rw [exec_answerInput he hw, h, answerInput_eq_withInput (hinEnd.trans he), hinput]
  rfl

/-! ### A waiting In -/

/-- R151: In is a matter of what its loop over the listed bytes gives. -/
theorem exec_inLine_congr {s t : State} (h : s.readLine = t.readLine) : exec .inLine s = exec .inLine t := by
  show execInLine s = execInLine t
  rw [execInLine, execInLine, h]

/-- R151: bytes without a terminator are the beginning of the line, whatever follows them. -/
theorem takeLine_append {bs : List Byte} (h : newline ∉ bs) (more : List Byte) :
    takeLine (bs ++ more) = (bs ++ (takeLine more).1, (takeLine more).2) := by
  induction bs with
  | nil => rfl
  | cons b rest ih =>
    simp only [List.mem_cons, not_or] at h
    obtain ⟨hb, hrest⟩ := h
    simp [takeLine, Ne.symm hb, ih hrest]

/-- R151: the loop may stop after listed bytes without a terminator, and go on after them. -/
theorem readLine_setInput {s : State} {bs more : List Byte} (hu : s.unread = bs ++ more) (hn : newline ∉ bs) :
    (s.setInput (s.inPos + bs.length) (s.lineBuf ++ bs)).readLine = s.readLine := by
  have hmore : s.input.drop (s.inPos + bs.length) = more := by
    rw [← List.drop_drop]
    show s.unread.drop bs.length = more
    rw [hu, List.drop_left]
  have hall : s.input.drop s.inPos = bs ++ more := hu
  simp only [State.readLine, State.setInput_input, State.setInput_inPos, State.setInput_lineBuf, hmore, hall,
    takeLine_append hn, List.length_append, List.append_assoc, Nat.add_assoc]
  rfl

/-- Settles O49: the wait consumed the listed bytes, and the loop goes on after them as if it had not stopped. -/
theorem waitingReadLosesNoByte : Obligations.WaitingReadLosesNoByte := by
  intro s w bytes fin hp hw h
  have hwait : w = s.setInput (s.inPos + s.unread.length) (s.lineBuf ++ s.unread) := by
    rw [exec_inLine_of_waits hw, Host.Outcome.next.injEq] at h
    exact h.symm
  obtain ⟨hn, he⟩ := hw
  have hcomm : w.answerInput bytes fin =
      (s.answerInput bytes fin).setInput (s.inPos + s.unread.length) (s.lineBuf ++ s.unread) := by
    rw [hwait, answerInput_eq_withInput he, answerInput_eq_withInput (by exact he)]
    rfl
  have hgo := readLine_setInput (answerInput_unread he hp bytes fin) hn
  rw [State.answerInput_inPos, State.answerInput_lineBuf, ← hcomm] at hgo
  exact exec_inLine_congr hgo

end Sys2Proof.Machine
end

section
/-! A held write (R53, R107). -/

namespace Sys2Proof.Machine

/-- R154: a value of at most 255 is its low byte. -/
theorem byteChecked_of_le {v : Word} (h : v.toNat ≤ 255) : byteChecked v = some (v.setWidth 8) := by
  rw [byteChecked, if_pos h, BitVec.ofNat_toNat]

/-- R150, R152, R154: past its checks, an output instruction is the write of the bytes it offers. -/
theorem exec_of_pendingWrite {i : Instr} {s : State} {bytes : List Byte} (h : pendingWrite i s = some bytes) :
    exec i s = concludeWrite bytes s := by
  cases i with
  | outStr str =>
    cases h
    rfl
  | out p =>
    obtain ⟨v, hv, rfl⟩ := Option.map_eq_some_iff.mp h
    rw [exec_out_eq, operand_of_some s p v hv, orRaise_some]
  | outByte p =>
    cases hv : s.fromTop p.toNat with
    | none => simp [pendingWrite, hv] at h
    | some v =>
      simp only [pendingWrite, hv, Option.ite_none_right_eq_some, Option.some.injEq] at h
      obtain ⟨hle, rfl⟩ := h
      rw [exec_outByte_eq, operand_of_some s p v hv, orRaise_some, byteChecked_of_le hle, orRaise_some]
  | _ => cases h

/-- R53: after the pieces that it accepts, the environment goes on with the further replies. -/
theorem offer_of_holds {s : State} {k : Nat} (hk : PortHolds s k) (fin : OutEnd) (rest : List Byte)
    (replies : List OutReply) :
    offer fin rest (s.outReplies ++ replies) =
      ⟨rest.take k ++ (offer fin (rest.drop k) replies).accepted, (offer fin (rest.drop k) replies).left,
        (offer fin (rest.drop k) replies).fin⟩ := by
  obtain ⟨ks, rfl, hr, -⟩ := hk
  rw [hr, offer_acceptAll]

theorem drop_add_length_take (bytes : List Byte) (n k : Nat) :
    bytes.drop (n + ((bytes.drop n).take k).length) = (bytes.drop n).drop k := by
  rw [← List.drop_drop]
  conv_lhs => arg 2; rw [← List.take_append_drop k (bytes.drop n)]
  exact List.drop_left

/-- R53, R107: a write that the port holds after a piece goes on with the rest of its bytes. -/
theorem outWrite_after_wait {s : State} {k : Nat} (hk : PortHolds s k) (bytes : List Byte) (replies : List OutReply)
    (fin : OutEnd) :
    ((s.setOutput (s.output ++ (bytes.drop s.outTaken).take k) []
        (s.outTaken + ((bytes.drop s.outTaken).take k).length)).answerOutput replies fin).outWrite bytes =
      (s.answerOutput replies fin).outWrite bytes := by
  have hall := offer_of_holds hk fin (bytes.drop s.outTaken) replies
  have hrest := drop_add_length_take bytes s.outTaken k
  simp only [State.outWrite, State.answerOutput, State.setOutput, List.nil_append, hall, hrest, List.append_assoc,
    List.length_append, Nat.add_assoc]

/-- A write instruction is a matter of how the write ends and of the state it leaves. -/
theorem concludeWrite_congr {bytes : List Byte} {s t : State} (h : s.outWrite bytes = t.outWrite bytes) :
    concludeWrite bytes s = concludeWrite bytes t := by
  rw [concludeWrite, concludeWrite, h]

theorem concludeWrite_of_holds {s : State} {k : Nat} (hk : PortHolds s k) (bytes : List Byte) :
    concludeWrite bytes s = .next (s.setOutput (s.output ++ (bytes.drop s.outTaken).take k) []
      (s.outTaken + ((bytes.drop s.outTaken).take k).length)) := by
  have hoffer := offer_holds s (bytes.drop s.outTaken) k hk
  rw [concludeWrite_of_waiting bytes s (by rw [hoffer]), hoffer]

/-- Settles O50: both sides are the write of the same bytes, and the wait only split it. -/
theorem waitingWriteGoesOnWhereItStopped : Obligations.WaitingWriteGoesOnWhereItStopped := by
  intro i s w k replies fin bytes hk hp h
  rw [exec_of_pendingWrite hp, concludeWrite_of_holds hk, Host.Outcome.next.injEq] at h
  subst h
  have hwrite (t : State) (ht : t.stack = s.stack) : exec i t = concludeWrite bytes t :=
    exec_of_pendingWrite ((pendingWrite_congr ht).trans hp)
  have hgo := concludeWrite_congr (outWrite_after_wait hk bytes replies fin)
  exact (hwrite _ (by rfl)).trans (hgo.trans (hwrite (s.answerOutput replies fin) rfl).symm)

end Sys2Proof.Machine
end

section
/-! The machine's reading of decimal text is the grammar of R156, so a complete line ends In as the grammar says (R151). -/

namespace Sys2Proof.Machine

/-! ### The value of a line -/

theorem foldl_lineValue (line : List Byte) (acc : Nat) :
    line.foldl (fun acc b => acc * 10 + (b.toNat - 0x30)) acc = acc * 10 ^ line.length + decimalValue line := by
  induction line generalizing acc with
  | nil => simp [decimalValue]
  | cons b rest ih =>
    rw [List.foldl_cons, ih, decimalValue, List.length_cons, Nat.pow_succ]
    ring

/-- R156: reading from the first byte on gives the sum over the digits. -/
theorem lineValue_eq_decimalValue (line : List Byte) : lineValue line = decimalValue line := by
  rw [lineValue, foldl_lineValue, Nat.zero_mul, Nat.zero_add]

/-! ### Whitespace -/

theorem isSpace_eq_true {b : Byte} : isSpace b = true ↔ IsWhitespace b := decide_eq_true_iff

theorem isDigit_eq_true {b : Byte} : isDigit b = true ↔ IsDecimalDigit b := decide_eq_true_iff

/-- R156: no digit is whitespace. -/
theorem isSpace_of_digit {b : Byte} (h : IsDecimalDigit b) : ¬ isSpace b = true := by
  rw [isSpace_eq_true]
  intro hs
  simp only [IsWhitespace, List.mem_cons, List.not_mem_nil, or_false] at hs
  rcases hs with rfl | rfl | rfl | rfl | rfl | rfl <;> exact absurd h (by decide)

/-- R156: a line is what trimming leaves of it, with whitespace on both sides. -/
theorem exists_trimSpace (line : List Byte) :
    ∃ pre post, line = pre ++ trimSpace line ++ post ∧ (∀ b ∈ pre, IsWhitespace b) ∧ ∀ b ∈ post, IsWhitespace b := by
  have space {l : List Byte} : ∀ b ∈ l.takeWhile isSpace, IsWhitespace b :=
    fun b hb => isSpace_eq_true.mp (List.mem_takeWhile_imp hb)
  refine ⟨line.takeWhile isSpace, ((line.dropWhile isSpace).reverse.takeWhile isSpace).reverse, ?_, space,
    fun b hb => space b (List.mem_reverse.mp hb)⟩
  rw [trimSpace, List.append_assoc, ← List.reverse_append, List.takeWhile_append_dropWhile, List.reverse_reverse,
    List.takeWhile_append_dropWhile]

theorem dropWhile_isSpace_of_digit {b : Byte} {rest : List Byte} (h : IsDecimalDigit b) :
    (b :: rest).dropWhile isSpace = b :: rest :=
  List.dropWhile_cons_of_neg (isSpace_of_digit h)

/-- Leading whitespace is removed up to the first digit. -/
theorem dropWhile_isSpace_append {pre digits : List Byte} (hpre : ∀ b ∈ pre, IsWhitespace b) (hne : digits ≠ [])
    (hdig : ∀ b ∈ digits, IsDecimalDigit b) (rest : List Byte) :
    (pre ++ (digits ++ rest)).dropWhile isSpace = digits ++ rest := by
  obtain ⟨d, ds, rfl⟩ := List.exists_cons_of_ne_nil hne
  rw [List.dropWhile_append_of_pos fun b hb => isSpace_eq_true.mpr (hpre b hb), List.cons_append,
    dropWhile_isSpace_of_digit (hdig d List.mem_cons_self)]

/-- R156: trimming removes the whitespace around digits, and no digit. -/
theorem trimSpace_of_digits {pre digits post : List Byte} (hpre : ∀ b ∈ pre, IsWhitespace b)
    (hpost : ∀ b ∈ post, IsWhitespace b) (hne : digits ≠ []) (hdig : ∀ b ∈ digits, IsDecimalDigit b) :
    trimSpace (pre ++ digits ++ post) = digits := by
  have hback := dropWhile_isSpace_append (pre := post.reverse) (digits := digits.reverse) (by simpa using hpost)
    (by simpa using hne) (by simpa using hdig) []
  rw [trimSpace, List.append_assoc, dropWhile_isSpace_append hpre hne hdig, List.reverse_append]
  simpa using congrArg List.reverse hback

/-! ### The grammar -/

/-- R156: the part of the line that is to be digits. -/
def lineBody (trim : Bool) (line : List Byte) : List Byte := if trim then trimSpace line else line

/-- R156: the parser answers the value of the body, where that is digits and a u64. -/
theorem parseU64_eq_some_iff_body (trim : Bool) (line : List Byte) (v : Word) :
    parseU64 trim line = some v ↔
      lineBody trim line ≠ [] ∧ (∀ b ∈ lineBody trim line, IsDecimalDigit b) ∧
        decimalValue (lineBody trim line) = v.toNat := by
  have hparse : parseU64 trim line =
      if lineBody trim line ≠ [] ∧ (lineBody trim line).all isDigit = true ∧
        lineValue (lineBody trim line) ≤ 2 ^ 64 - 1
      then some (BitVec.ofNat 64 (lineValue (lineBody trim line))) else none := rfl
  have hv := v.isLt
  simp only [hparse, Option.ite_none_right_eq_some, Option.some.injEq, List.all_eq_true, isDigit_eq_true,
    lineValue_eq_decimalValue, and_assoc]
  refine and_congr_right fun _ => and_congr_right fun _ => ⟨fun ⟨hle, he⟩ => ?_, fun he => ?_⟩
  · rw [← he, BitVec.toNat_ofNat, Nat.mod_eq_of_lt (by omega)]
  · rw [he]
    exact ⟨by omega, by simp⟩

/-- R156: the line is its body with whitespace around it, and with `IN_TRIM` false it is its body. -/
theorem parsesTo_iff_body (trim : Bool) (line : List Byte) (v : Word) :
    ParsesTo trim line v ↔
      lineBody trim line ≠ [] ∧ (∀ b ∈ lineBody trim line, IsDecimalDigit b) ∧
        decimalValue (lineBody trim line) = v.toNat := by
  cases trim with
  | false =>
    constructor
    · rintro ⟨pre, digits, post, rfl, htrim, -, -, hbody⟩
      obtain ⟨rfl, rfl⟩ := htrim rfl
      simpa [lineBody] using hbody
    · intro hbody
      exact ⟨[], line, [], by simp, fun _ => ⟨rfl, rfl⟩, by simp, by simp, hbody⟩
  | true =>
    constructor
    · rintro ⟨pre, digits, post, rfl, -, hpre, hpost, hne, hdig, hval⟩
      have htrim : lineBody true (pre ++ digits ++ post) = digits := trimSpace_of_digits hpre hpost hne hdig
      rw [htrim]
      exact ⟨hne, hdig, hval⟩
    · intro hbody
      obtain ⟨pre, post, hline, hpre, hpost⟩ := exists_trimSpace line
      exact ⟨pre, trimSpace line, post, hline, by simp, hpre, hpost, hbody⟩

/-- R156: the parser and the grammar agree. -/
theorem parseU64_eq_some_iff (trim : Bool) (line : List Byte) (v : Word) :
    parseU64 trim line = some v ↔ ParsesTo trim line v := by
  rw [parseU64_eq_some_iff_body, parsesTo_iff_body]

theorem parseU64_eq_none {trim : Bool} {line : List Byte} (h : ∀ v, ¬ ParsesTo trim line v) :
    parseU64 trim line = none :=
  Option.eq_none_iff_forall_ne_some.mpr fun v hv => h v ((parseU64_eq_some_iff trim line v).mp hv)

/-! ### The end of a line -/

theorem concludeLine_of_parsesTo {s : State} {v : Word} (h : ParsesTo s.cfg.inTrim s.lineBuf v) :
    concludeLine s = concludePush v (s.setLineBuf []) := by
  rw [concludeLine_eq, (parseU64_eq_some_iff _ _ v).mpr h, orRaise_some]

theorem concludeLine_of_not_parsesTo {s : State} (h : ∀ v, ¬ ParsesTo s.cfg.inTrim s.lineBuf v) :
    concludeLine s = .next (s.enterError .parse .none s.pc) := by
  rw [concludeLine_eq, parseU64_eq_none h, orRaise_none, conclude_raise]

/-- R151: an In that has the whole line pushes its value, or overflows, or raises ParseError. -/
theorem lineEnds_of_concludeLine {s : State} {line : List Byte} {pos : Nat}
    (h : exec .inLine s = concludeLine (s.setInput pos line)) : LineEnds s line pos := by
  refine ⟨fun v hv hf => ?_, fun v hv hf => ?_, fun hv => ?_⟩
  · rw [h, concludeLine_of_parsesTo (s := s.setInput pos line) hv,
      concludePush_of_not_full ((s.setInput pos line).setLineBuf []) v hf]
    rfl
  · rw [Raises, h, concludeLine_of_parsesTo (s := s.setInput pos line) hv,
      concludePush_of_full ((s.setInput pos line).setLineBuf []) v hf]
    exact ⟨_, rfl, by constructor <;> rfl⟩
  · rw [Raises, h, concludeLine_of_not_parsesTo (s := s.setInput pos line) hv]
    exact ⟨_, rfl, by constructor <;> rfl⟩

end Sys2Proof.Machine
end

section
/-! In on an infinite sequence, turn by turn (R52, R107, R109). -/

namespace Sys2Proof.Machine

/-- R55, R101: a turn of the running engine is the fetched instruction. -/
theorem step_of_engineRuns {s : State} {i : Instr} (hr : s.engineRuns) (hf : s.fetch = some i) :
    step s = exec i s := by
  obtain ⟨hev, hst⟩ := hr
  simp only [step, hev, engineTurn, hst, hf]

/-- The run goes on from the state that a turn answers. -/
theorem run_succ_of_step {s t : State} (h : step s = .next t) (n : Nat) :
    Host.Core.run core (n + 1) s = Host.Core.run core n t := by
  have hcore : core.step s = .next t := h
  simp only [Host.Core.run, hcore]

/-- In runs on an infinite sequence, every listed byte consumed. -/
structure ReadsEndless (s : State) (x : Endless) : Prop where
  runs : s.engineRuns
  fetch : s.fetch = some .inLine
  inEnd : s.inEnd = .endless x
  unread : s.unread = []

namespace ReadsEndless

variable {s : State} {x : Endless}

/-- R52: there is a byte at the read position. -/
theorem exists_byte (h : ReadsEndless s x) : ∃ b, s.inByteAt s.inPos = some b := by
  obtain ⟨k, hk⟩ := Nat.exists_eq_add_of_le (by simpa [h.unread] using unread_end s)
  exact ⟨x.byte k, by rw [hk, inByteAt_endless h.inEnd]⟩

/-- What In does with the byte at the read position. -/
theorem exec_eq (h : ReadsEndless s x) {b : Byte} (hb : s.inByteAt s.inPos = some b) :
    exec .inLine s =
      if b = newline then concludeLine (s.setInput (s.inPos + 1) s.lineBuf)
      else .next (s.setInput (s.inPos + 1) (s.lineBuf ++ [b])) := by
  have hexec := exec_inLine_of_byte (s := s) (b := b) (by simp [h.unread]) (by simpa [h.unread] using hb)
  simpa [h.unread] using hexec

/-- The same holds after further bytes of the sequence were consumed. -/
theorem setInput (h : ReadsEndless s x) (n : Nat) (line : List Byte) :
    ReadsEndless (s.setInput (s.inPos + n) line) x where
  runs := h.runs
  fetch := h.fetch
  inEnd := h.inEnd
  unread := by
    have hle : s.input.length ≤ s.inPos := by simpa [h.unread] using unread_end s
    exact List.drop_eq_nil_of_le (Nat.le_trans hle (Nat.le_add_right _ _))

/-- A byte that is no terminator takes one turn. -/
theorem step_eq (h : ReadsEndless s x) {b : Byte} (hb : s.inByteAt s.inPos = some b) (hne : b ≠ newline) :
    step s = .next (s.setInput (s.inPos + 1) (s.lineBuf ++ [b])) := by
  rw [step_of_engineRuns h.runs h.fetch, h.exec_eq hb, if_neg hne]

/-- R52, R107: `n` bytes without a terminator take `n` turns, and nothing but the read position and the line in progress
changes. -/
theorem run_eq (h : ReadsEndless s x) (n : Nat) (hn : ∀ j < n, s.inByteAt (s.inPos + j) ≠ some newline) :
    ∃ bs : List Byte, bs.length = n ∧ s.BytesFrom s.inPos bs ∧
      Host.Core.run core n s = .next (s.setInput (s.inPos + n) (s.lineBuf ++ bs)) := by
  induction n generalizing s with
  | zero => exact ⟨[], rfl, .nil s _, by rw [List.append_nil]; rfl⟩
  | succ n ih =>
    obtain ⟨b, hb⟩ := h.exists_byte
    have hne : b ≠ newline := by
      rintro rfl
      exact hn 0 (Nat.succ_pos n) hb
    obtain ⟨bs, hlen, hbs, hrun⟩ := ih (h.setInput 1 (s.lineBuf ++ [b])) fun j hj => by
      have hj' := hn (1 + j) (by omega)
      rwa [← Nat.add_assoc] at hj'
    refine ⟨b :: bs, by simp [hlen], (State.BytesFrom.singleton hb).append hbs, ?_⟩
    rw [run_succ_of_step (h.step_eq hb hne), hrun]
    simp [State.setInput, Nat.add_assoc, Nat.add_comm 1 n]

/-- R151: at the terminator the line in progress is complete. -/
theorem lineEnds (h : ReadsEndless s x) (hb : s.inByteAt s.inPos = some newline) :
    LineEnds s s.lineBuf (s.inPos + 1) :=
  lineEnds_of_concludeLine (by rw [h.exec_eq hb, if_pos rfl])

end ReadsEndless

/-- Settles O56: one byte a turn, by induction on the number of bytes; then the turn that meets the terminator. -/
theorem endlessLineIsReadToItsTerminator : Obligations.EndlessLineIsReadToItsTerminator := by
  intro s x n hruns hfetch hend hunread hn
  have h : ReadsEndless s x := ⟨hruns, hfetch, hend, hunread⟩
  obtain ⟨bs, hlen, hbs, hrun⟩ := h.run_eq n hn
  exact ⟨bs, hlen, fun j hj => hbs j (hlen.symm ▸ hj), hrun, (h.setInput n (s.lineBuf ++ bs)).lineEnds⟩

end Sys2Proof.Machine
end

section
/-! Numeric fields (R74) and the places of the fields in a record (R71, R73). -/

namespace Sys2Proof

/-! ### Fields -/

theorem leNat_lt (bs : List Byte) : leNat bs < 256 ^ bs.length := by
  induction bs with
  | nil => simp [leNat]
  | cons b bs ih =>
    have hb := b.isLt
    simp only [leNat, List.length_cons, Nat.pow_succ]
    omega

/-- R74: the number that bytes spell is written as these bytes. -/
theorem leBytes_leNat (bs : List Byte) : leBytes bs.length (leNat bs) = bs := by
  induction bs with
  | nil => rfl
  | cons b bs ih =>
    have hb := b.isLt
    have hbyte : BitVec.ofNat 8 (b.toNat + 256 * leNat bs) = b := by
      apply BitVec.eq_of_toNat_eq
      rw [BitVec.toNat_ofNat]
      omega
    have hrest : (b.toNat + 256 * leNat bs) / 256 = leNat bs := by omega
    rw [leNat, List.length_cons, leBytes, hbyte, hrest, ih]

/-- R74: the sum of each byte times its power of 256. -/
theorem leNat_eq_sum (bs : List Byte) :
    leNat bs = ((List.range bs.length).map (fun j => ((bs[j]?).getD 0).toNat * 256 ^ j)).sum := by
  induction bs with
  | nil => rfl
  | cons b bs ih =>
    rw [leNat, ih, List.length_cons, List.range_succ_eq_map, List.map_cons, List.map_map, List.sum_cons,
      ← List.sum_map_mul_left]
    congr 2
    · simp
    · exact List.map_congr_left fun j _ => by simp [Nat.pow_succ]; ring

theorem le64_toNat {bs : List Byte} (h : bs.length = 8) : (le64 bs).toNat = leNat bs := by
  have hlt := leNat_lt bs
  rw [h] at hlt
  rw [le64, BitVec.toNat_ofNat, Nat.mod_eq_of_lt (by omega)]

theorem wordBytes_le64 {bs : List Byte} (h : bs.length = 8) : wordBytes (le64 bs) = bs := by
  rw [wordBytes, le64_toNat h, ← h, leBytes_leNat]

theorem le64_wordBytes (w : Word) : le64 (wordBytes w) = w := by
  rw [le64, leNat_wordBytes, BitVec.ofNat_toNat, BitVec.setWidth_eq]

/-- Settles O4: the bytes of a number and the number of bytes undo each other. -/
theorem fieldValueIsLittleEndianSum : Obligations.FieldValueIsLittleEndianSum := by
  refine ⟨fun bs h => ⟨?_, wordBytes_le64 h⟩, fun w => ⟨wordBytes_length w, le64_wordBytes w⟩⟩
  rw [le64_toNat h, leNat_eq_sum, h]

/-! ### Places in a record -/

theorem leNat_encode (tm : TagMap) (i : Instr) :
    leNat (encode tm i) = (tm.tag i.opcode).toNat + 2 ^ 8 * leNat i.payload := rfl

theorem leNat_wordBytes_append (w : Word) (bs : List Byte) :
    leNat (wordBytes w ++ bs) = w.toNat + 2 ^ 64 * leNat bs := by
  rw [leNat_append, leNat_wordBytes, wordBytes_length, show 256 ^ 8 = 2 ^ 64 from rfl]

/-- R71, R77: tag and payload are as long as the format says. -/
theorem encode_length (tm : TagMap) (i : Instr) : (encode tm i).length = i.recordLength := by
  cases i <;> simp [encode, Instr.payload, Instr.recordLength]
  omega

/-- R71: a record with one operand. -/
theorem leNat_encode_one {tm : TagMap} {i : Instr} {x : Word} (h : i.payload = wordBytes x) :
    leNat (encode tm i) = (tm.tag i.opcode).toNat + 2 ^ 8 * x.toNat := by
  rw [leNat_encode, h, leNat_wordBytes]

/-- R71: a record with two operands. -/
theorem leNat_encode_two {tm : TagMap} {i : Instr} {a b : Word} (h : i.payload = wordBytes a ++ wordBytes b) :
    leNat (encode tm i) = (tm.tag i.opcode).toNat + 2 ^ 8 * a.toNat + 2 ^ 72 * b.toNat := by
  rw [leNat_encode, h, leNat_wordBytes_append, leNat_wordBytes]
  ring

/-- R71: a record with three operands. -/
theorem leNat_encode_three {tm : TagMap} {i : Instr} {a b t : Word}
    (h : i.payload = wordBytes a ++ (wordBytes b ++ wordBytes t)) :
    leNat (encode tm i) =
      (tm.tag i.opcode).toNat + 2 ^ 8 * a.toNat + 2 ^ 72 * b.toNat + 2 ^ 136 * t.toNat := by
  rw [leNat_encode, h, leNat_wordBytes_append, leNat_wordBytes_append, leNat_wordBytes]
  ring

/-- R71, R75: the tag and the length field of a string record stand in front of the string. -/
theorem encode_outStr (tm : TagMap) (s : List Byte) :
    encode tm (.outStr s) = (tm.outStr :: wordBytes (BitVec.ofNat 64 s.length)) ++ s := rfl

theorem encode_outStr_take (tm : TagMap) (s : List Byte) :
    (encode tm (.outStr s)).take 9 = tm.outStr :: wordBytes (BitVec.ofNat 64 s.length) := by
  rw [encode_outStr, List.take_left' (by simp)]

theorem encode_outStr_drop (tm : TagMap) (s : List Byte) : (encode tm (.outStr s)).drop 9 = s := by
  rw [encode_outStr, List.drop_left' (by simp)]

/-- Settles O3: by the number of operands in the payload. -/
theorem recordLayoutByFormat : Obligations.RecordLayoutByFormat := by
  intro tm
  refine ⟨rfl, rfl, fun x => ?_, fun a b => leNat_encode_two rfl,
    fun a b t => ⟨leNat_encode_three rfl, leNat_encode_three rfl⟩,
    fun s hs => ⟨?_, encode_outStr_drop tm s⟩, encode_length tm⟩
  · exact ⟨leNat_encode_one rfl, leNat_encode_one rfl, leNat_encode_one rfl, leNat_encode_one rfl,
      leNat_encode_one rfl, leNat_encode_one rfl, leNat_encode_one rfl⟩
  · rw [encode_outStr_take, leNat, leNat_wordBytes, BitVec.toNat_ofNat, Nat.mod_eq_of_lt hs]
    rfl

end Sys2Proof
end

section
/-! One record (R71 to R78): the decoder reads exactly the encodings of the well-formed instructions, and what it reads
does not depend on the bytes after the record. -/

namespace Sys2Proof

/-! ### A field at the front of the bytes (R74, R80) -/

theorem takeField_eq_some {bs left : List Byte} {w : Word} :
    takeField bs = some (w, left) ↔ bs = wordBytes w ++ left := by
  constructor
  · intro h
    unfold takeField at h
    split at h
    · cases h
    · cases h
      rw [wordBytes_le64 (by rw [List.length_take]; omega), List.take_append_drop]
  · rintro rfl
    exact takeField_wordBytes w left

theorem exists_wordBytes_append {bs : List Byte} (h : 8 ≤ bs.length) :
    ∃ w left, bs = wordBytes w ++ left ∧ left.length = bs.length - 8 :=
  ⟨le64 (bs.take 8), bs.drop 8, by rw [wordBytes_le64 (by simp [h]), List.take_append_drop], List.length_drop⟩

/-- What `readF1`, `readF2`, `readF3` and `readS` share: one field is read, and `k` goes on. -/
def withField (k : Word → List Byte → RecordResult) (bs : List Byte) : RecordResult :=
  match takeField bs with
  | none => .bad .truncated
  | some (x, left) => k x left

theorem readF1_eq_withField (f : Word → Instr) : readF1 f = withField fun x left => .ok (f x) left := rfl

theorem readF2_eq_withField (f : Word → Word → Instr) : readF2 f = withField fun x => readF1 (f x) := rfl

theorem readF3_eq_withField (f : Word → Word → Word → Instr) : readF3 f = withField fun x => readF2 (f x) := rfl

/-- R75: the string after its length field. -/
def readString (n : Word) (bs : List Byte) : RecordResult :=
  if bs.length < n.toNat then .bad .truncated
  else if validUtf8 (bs.take n.toNat) then .ok (.outStr (bs.take n.toNat)) (bs.drop n.toNat)
  else .bad .invalidUtf8

theorem readS_eq_withField : readS = withField readString := rfl

theorem withField_wordBytes (k : Word → List Byte → RecordResult) (x : Word) (left : List Byte) :
    withField k (wordBytes x ++ left) = k x left := by
  rw [withField, takeField_wordBytes]

theorem withField_eq_ok {k : Word → List Byte → RecordResult} {bs rest : List Byte} {i : Instr} :
    withField k bs = .ok i rest ↔ ∃ x left, bs = wordBytes x ++ left ∧ k x left = .ok i rest := by
  constructor
  · intro h
    unfold withField at h
    split at h
    · cases h
    · rename_i x left hx
      exact ⟨x, left, takeField_eq_some.mp hx, h⟩
  · rintro ⟨x, left, rfl, h⟩
    rw [withField_wordBytes, h]

/-! ### What each format reads (R71, R73, R75) -/

theorem readF1_eq_ok {f : Word → Instr} {bs rest : List Byte} {i : Instr} :
    readF1 f bs = .ok i rest ↔ ∃ x, f x = i ∧ bs = wordBytes x ++ rest := by
  rw [readF1_eq_withField, withField_eq_ok]
  constructor
  · rintro ⟨x, left, hbs, h⟩
    cases h
    exact ⟨x, rfl, hbs⟩
  · rintro ⟨x, rfl, hbs⟩
    exact ⟨x, rest, hbs, rfl⟩

theorem readF2_eq_ok {f : Word → Word → Instr} {bs rest : List Byte} {i : Instr} :
    readF2 f bs = .ok i rest ↔ ∃ x y, f x y = i ∧ bs = wordBytes x ++ (wordBytes y ++ rest) := by
  simp only [readF2_eq_withField, withField_eq_ok, readF1_eq_ok]
  constructor
  · rintro ⟨x, _, hbs, y, hi, rfl⟩
    exact ⟨x, y, hi, hbs⟩
  · rintro ⟨x, y, hi, hbs⟩
    exact ⟨x, _, hbs, y, hi, rfl⟩

theorem readF3_eq_ok {f : Word → Word → Word → Instr} {bs rest : List Byte} {i : Instr} :
    readF3 f bs = .ok i rest ↔
      ∃ x y z, f x y z = i ∧ bs = wordBytes x ++ (wordBytes y ++ (wordBytes z ++ rest)) := by
  simp only [readF3_eq_withField, withField_eq_ok, readF2_eq_ok]
  constructor
  · rintro ⟨x, _, hbs, y, z, hi, rfl⟩
    exact ⟨x, y, z, hi, hbs⟩
  · rintro ⟨x, y, z, hi, hbs⟩
    exact ⟨x, _, hbs, y, z, hi, rfl⟩

/-- R75: a string of the length that its field says is checked and read. -/
theorem readString_append {n : Word} {s : List Byte} (hs : s.length = n.toNat) (rest : List Byte) :
    readString n (s ++ rest) = if validUtf8 s then .ok (.outStr s) rest else .bad .invalidUtf8 := by
  rw [readString, if_neg (by simp [hs]), List.take_left' hs, List.drop_left' hs]

/-- R75: what reading a string record gives, whether the string is UTF-8 or not. -/
theorem readS_payload {s : List Byte} (hs : s.length < 2 ^ 64) (rest : List Byte) :
    readS ((Instr.outStr s).payload ++ rest) = if validUtf8 s then .ok (.outStr s) rest else .bad .invalidUtf8 := by
  rw [Instr.payload, List.append_assoc, readS_eq_withField, withField_wordBytes, readString_append]
  rw [BitVec.toNat_ofNat, Nat.mod_eq_of_lt hs]

theorem readS_eq_ok {bs rest : List Byte} {i : Instr} :
    readS bs = .ok i rest ↔ ∃ s, .outStr s = i ∧ i.wf = true ∧ bs = i.payload ++ rest := by
  constructor
  · intro h
    rw [readS_eq_withField, withField_eq_ok] at h
    obtain ⟨n, left, rfl, h⟩ := h
    unfold readString at h
    split at h
    · cases h
    · rename_i hlen
      split at h
      · rename_i hu
        cases h
        have hn := n.isLt
        have htake : (left.take n.toNat).length = n.toNat := by rw [List.length_take]; omega
        exact ⟨_, rfl, by simp only [Instr.wf, htake, hu]; simpa using hn,
          by simp [Instr.payload, htake, -List.length_take]⟩
      · cases h
  · rintro ⟨s, rfl, hwf, rfl⟩
    obtain ⟨hlen, hu⟩ : s.length < 2 ^ 64 ∧ validUtf8 s = true := by simpa [Instr.wf] using hwf
    rw [readS_payload hlen, if_pos hu]

/-! ### The payload by its opcode, and the whole record (R72, R77, R80) -/

/-- R77: the payload reader of an opcode reads the payloads of its well-formed instructions, and nothing else. -/
theorem readPayload_eq_ok {op : Opcode} {bs rest : List Byte} {i : Instr} :
    readPayload op bs = .ok i rest ↔ i.wf = true ∧ i.opcode = op ∧ bs = i.payload ++ rest := by
  constructor
  · intro h
    cases op with
    | inLine | inByte =>
      cases h
      exact ⟨rfl, rfl, rfl⟩
    | outStr =>
      obtain ⟨s, rfl, hwf, hbs⟩ := readS_eq_ok.mp h
      exact ⟨hwf, rfl, hbs⟩
    | add =>
      obtain ⟨a, b, rfl, hbs⟩ := readF2_eq_ok.mp h
      exact ⟨rfl, rfl, by rw [hbs, Instr.payload, List.append_assoc]⟩
    | gt | eq =>
      obtain ⟨a, b, t, rfl, hbs⟩ := readF3_eq_ok.mp h
      exact ⟨rfl, rfl, by simp only [hbs, Instr.payload, List.append_assoc]⟩
    | push | out | copy | jmp | dec | inc | outByte =>
      obtain ⟨x, rfl, hbs⟩ := readF1_eq_ok.mp h
      exact ⟨rfl, rfl, hbs⟩
  · rintro ⟨hwf, rfl, rfl⟩
    cases i with
    | inLine | inByte => rfl
    | outStr s =>
      rw [Instr.opcode, readPayload, readS_eq_ok]
      exact ⟨s, rfl, hwf, rfl⟩
    | add a b =>
      rw [Instr.opcode, readPayload, readF2_eq_ok]
      exact ⟨a, b, rfl, by rw [Instr.payload, List.append_assoc]⟩
    | gt a b t | eq a b t =>
      rw [Instr.opcode, readPayload, readF3_eq_ok]
      exact ⟨a, b, t, rfl, by simp only [Instr.payload, List.append_assoc]⟩
    | push x | out x | copy x | jmp x | dec x | inc x | outByte x =>
      rw [Instr.opcode, readPayload, readF1_eq_ok]
      exact ⟨x, rfl, rfl⟩

/-- R78: after a tag of the map the opcode's payload is read. -/
theorem decodeRecord_tag {tm : TagMap} (htm : tm.wf = true) (op : Opcode) (rest : List Byte) :
    decodeRecord tm (tm.tag op :: rest) = readPayload op rest := by
  rw [decodeRecord, opcodeOf_tag tm htm]

/-- R78: a byte outside the map begins no record. -/
theorem decodeRecord_unknownTag {tm : TagMap} {t : Byte} (ht : ∀ op, tm.tag op ≠ t) (rest : List Byte) :
    decodeRecord tm (t :: rest) = .bad .unknownTag := by
  rw [decodeRecord, (opcodeOf_eq_none tm t).mpr ht]

/-- R75, R80: a string that is not UTF-8. -/
theorem decodeRecord_invalidUtf8 {tm : TagMap} (htm : tm.wf = true) {s : List Byte} (hs : s.length < 2 ^ 64)
    (hu : validUtf8 s = false) (rest : List Byte) :
    decodeRecord tm (encode tm (.outStr s) ++ rest) = .bad .invalidUtf8 := by
  have hread : readPayload .outStr ((Instr.outStr s).payload ++ rest) = .bad .invalidUtf8 := by
    rw [readPayload, readS_payload hs, hu]
    rfl
  rw [encode, List.cons_append, decodeRecord_tag htm]
  exact hread

/-- R82 for one record: what is read is the encoding of a well-formed instruction, and each such encoding is read. -/
theorem decodeRecord_eq_ok {tm : TagMap} (htm : tm.wf = true) {bs rest : List Byte} {i : Instr} :
    decodeRecord tm bs = .ok i rest ↔ i.wf = true ∧ bs = encode tm i ++ rest := by
  constructor
  · intro h
    unfold decodeRecord at h
    split at h
    · cases h
    · split at h
      · cases h
      · rename_i t left _ op hop
        obtain ⟨hwf, rfl, rfl⟩ := readPayload_eq_ok.mp h
        exact ⟨hwf, by rw [encode, opcodeOf_some tm t _ hop, List.cons_append]⟩
  · rintro ⟨hwf, rfl⟩
    rw [encode, List.cons_append, decodeRecord_tag htm]
    exact readPayload_eq_ok.mpr ⟨hwf, rfl, rfl⟩

/-- Settles O2: one direction of `decodeRecord_eq_ok`. -/
theorem recordDecodesInFrontOfAnyBytes : Obligations.RecordDecodesInFrontOfAnyBytes :=
  fun _ _ _ htm hwf => (decodeRecord_eq_ok htm).mpr ⟨hwf, rfl⟩

/-! ### Every operand pattern is legal (R78) -/

theorem readF1_of_length (f : Word → Instr) {bs : List Byte} (h : 8 ≤ bs.length) :
    ∃ i rest, readF1 f bs = .ok i rest := by
  obtain ⟨x, left, rfl, -⟩ := exists_wordBytes_append h
  exact ⟨f x, left, readF1_eq_ok.mpr ⟨x, rfl, rfl⟩⟩

theorem readF2_of_length (f : Word → Word → Instr) {bs : List Byte} (h : 16 ≤ bs.length) :
    ∃ i rest, readF2 f bs = .ok i rest := by
  obtain ⟨x, left, rfl, hlen⟩ := exists_wordBytes_append (by omega : 8 ≤ bs.length)
  rw [readF2_eq_withField, withField_wordBytes]
  exact readF1_of_length (f x) (by omega)

theorem readF3_of_length (f : Word → Word → Word → Instr) {bs : List Byte} (h : 24 ≤ bs.length) :
    ∃ i rest, readF3 f bs = .ok i rest := by
  obtain ⟨x, left, rfl, hlen⟩ := exists_wordBytes_append (by omega : 8 ≤ bs.length)
  rw [readF3_eq_withField, withField_wordBytes]
  exact readF2_of_length (f x) (by omega)

theorem readPayload_of_length {op : Opcode} (hop : op ≠ .outStr) {bs : List Byte} (h : 24 ≤ bs.length) :
    ∃ i rest, readPayload op bs = .ok i rest := by
  cases op with
  | inLine | inByte => exact ⟨_, _, rfl⟩
  | outStr => exact absurd rfl hop
  | add => exact readF2_of_length .add (by omega)
  | gt => exact readF3_of_length .gt h
  | eq => exact readF3_of_length .eq h
  | push | out | copy | jmp | dec | inc | outByte => exact readF1_of_length _ (by omega)

/-! ### What is read does not depend on the bytes that follow (R80) -/

/-- The same result with more bytes left over. -/
def RecordResult.withMore (more : List Byte) (r : RecordResult) : RecordResult :=
  match r with
  | .ok i rest => .ok i (rest ++ more)
  | .bad sub => .bad sub

/-- Bytes appended change the outcome only where it was TRUNCATED. -/
def StableReader (read : List Byte → RecordResult) : Prop :=
  ∀ bs more, read bs = .bad .truncated ∨ read (bs ++ more) = (read bs).withMore more

theorem stableReader_ok (i : Instr) : StableReader fun left => .ok i left := fun _ _ => .inr rfl

theorem StableReader.withField {k : Word → List Byte → RecordResult} (h : ∀ x, StableReader (k x)) :
    StableReader (withField k) := by
  intro bs more
  cases hf : takeField bs with
  | none => exact .inl (by rw [Sys2Proof.withField, hf])
  | some p =>
    obtain ⟨x, left⟩ := p
    obtain rfl := takeField_eq_some.mp hf
    rw [List.append_assoc, withField_wordBytes, withField_wordBytes]
    exact h x left more

theorem stableReader_readF1 (f : Word → Instr) : StableReader (readF1 f) :=
  .withField fun x => stableReader_ok (f x)

theorem stableReader_readF2 (f : Word → Word → Instr) : StableReader (readF2 f) :=
  .withField fun x => stableReader_readF1 (f x)

theorem stableReader_readF3 (f : Word → Word → Word → Instr) : StableReader (readF3 f) :=
  .withField fun x => stableReader_readF2 (f x)

theorem stableReader_readString (n : Word) : StableReader (readString n) := by
  intro bs more
  by_cases hlen : bs.length < n.toNat
  · exact .inl (if_pos hlen)
  · right
    have htake : (bs.take n.toNat).length = n.toNat := by rw [List.length_take]; omega
    rw [← List.take_append_drop n.toNat bs, List.append_assoc, readString_append htake, readString_append htake]
    split <;> rfl

theorem stableReader_readPayload (op : Opcode) : StableReader (readPayload op) := by
  cases op with
  | inLine => exact stableReader_ok .inLine
  | inByte => exact stableReader_ok .inByte
  | outStr => exact .withField stableReader_readString
  | add => exact stableReader_readF2 .add
  | gt => exact stableReader_readF3 .gt
  | eq => exact stableReader_readF3 .eq
  | push | out | copy | jmp | dec | inc | outByte => exact stableReader_readF1 _

theorem stableReader_decodeRecord (tm : TagMap) : StableReader (decodeRecord tm) := by
  intro bs more
  cases bs with
  | nil => exact .inl rfl
  | cons t left =>
    cases hop : tm.opcodeOf t with
    | none => exact .inr (by simp only [List.cons_append, decodeRecord, hop, RecordResult.withMore])
    | some op => simpa only [List.cons_append, decodeRecord, hop] using stableReader_readPayload op left more

/-- R79: a record that is cut off is TRUNCATED: any other outcome would stay when the rest is put back. -/
theorem decodeRecord_cut {tm : TagMap} (htm : tm.wf = true) {i : Instr} (hwf : i.wf = true) {bs more : List Byte}
    (h : bs ++ more = encode tm i) (hmore : more ≠ []) : decodeRecord tm bs = .bad .truncated := by
  rcases stableReader_decodeRecord tm bs more with hcut | hsame
  · exact hcut
  · have hwhole : decodeRecord tm (bs ++ more) = .ok i [] :=
      (decodeRecord_eq_ok htm).mpr ⟨hwf, by rw [h, List.append_nil]⟩
    rw [hwhole] at hsame
    cases hr : decodeRecord tm bs with
    | bad sub =>
      rw [hr] at hsame
      cases hsame
    | ok j left =>
      rw [hr] at hsame
      obtain ⟨-, hleft⟩ := RecordResult.ok.inj hsame
      exact absurd (List.append_eq_nil_iff.mp hleft.symm).2 hmore

end Sys2Proof
end

section
/-! The whole image (R79, R80, R82): a program's records are read one by one, and only they are. -/

namespace Sys2Proof

theorem encode_ne_nil (tm : TagMap) (i : Instr) : encode tm i ≠ [] := List.cons_ne_nil _ _

/-- R80: the loop passes over the records of a well-formed program that fits. -/
theorem decodeFrom_encodeProgram {tm : TagMap} (htm : tm.wf = true) {cap : Nat} {prog : List Instr}
    (hwf : ∀ i ∈ prog, i.wf = true) (bs : List Byte) (off : Nat) (acc : List Instr)
    (hcap : acc.length + prog.length ≤ cap) :
    decodeFrom tm cap (encodeProgram tm prog ++ bs) 0 off acc =
      decodeFrom tm cap bs 0 (off + (encodeProgram tm prog).length) (acc ++ prog) := by
  induction prog generalizing off acc with
  | nil => simp [encodeProgram]
  | cons i prog ih =>
    obtain ⟨hi, hprog⟩ := List.forall_mem_cons.mp hwf
    rw [List.length_cons] at hcap
    have hrecord := (decodeRecord_eq_ok htm (rest := encodeProgram tm prog ++ bs)).mpr ⟨hi, rfl⟩
    rw [encodeProgram, List.append_assoc,
      decodeFrom_record tm cap _ _ i off acc (encode_ne_nil tm i) hrecord (by omega),
      ih hprog _ _ (by rw [List.length_append, List.length_singleton]; omega),
      List.length_append, Nat.add_assoc, List.append_assoc, List.singleton_append]

/-- R80: after a program's records the loop stands at their end, with the program. -/
theorem decode_encodeProgram_append {tm : TagMap} (htm : tm.wf = true) {cap : Nat} {prog : List Instr}
    (hwf : ∀ i ∈ prog, i.wf = true) (hcap : prog.length ≤ cap) (bs : List Byte) :
    decode tm cap (encodeProgram tm prog ++ bs) = decodeFrom tm cap bs 0 (encodeProgram tm prog).length prog := by
  rw [decode, decodeFrom_encodeProgram htm hwf bs 0 [] (by simpa using hcap), Nat.zero_add, List.nil_append]

/-- R80: bytes after a program's records that begin no record stop the load at their offset. -/
theorem decode_bad_after_program {tm : TagMap} (htm : tm.wf = true) {cap : Nat} {prog : List Instr}
    (hwf : ∀ i ∈ prog, i.wf = true) (hcap : prog.length ≤ cap) {bs : List Byte} {sub : FmtSub} (hbs : bs ≠ [])
    (h : decodeRecord tm bs = .bad sub) :
    decode tm cap (encodeProgram tm prog ++ bs) = .formatError sub (encodeProgram tm prog).length := by
  rw [decode_encodeProgram_append htm hwf hcap]
  obtain ⟨b, rest, rfl⟩ := List.exists_cons_of_ne_nil hbs
  exact decodeFrom_bad tm cap b rest sub _ prog h

/-- R80, D5: a record that decodes where there is no more room is PROGRAM_TOO_LARGE. -/
theorem decodeFrom_full (tm : TagMap) {bs left : List Byte} {i : Instr} (hbs : bs ≠ [])
    (h : decodeRecord tm bs = .ok i left) (off : Nat) (acc : List Instr) :
    decodeFrom tm acc.length bs 0 off acc = .formatError .programTooLarge off := by
  obtain ⟨b, rest, rfl⟩ := List.exists_cons_of_ne_nil hbs
  simp [decodeFrom, h]

/-- R82: if the loop ends with a program, the bytes it read are the records of the instructions that it added. -/
theorem encodeProgram_of_decodeFrom {tm : TagMap} (htm : tm.wf = true) {cap : Nat} {bs : List Byte} {skip off : Nat}
    {acc prog : List Instr} (h : decodeFrom tm cap bs skip off acc = .loaded prog) :
    ∃ added, prog = acc ++ added ∧ bs.drop skip = encodeProgram tm added := by
  induction bs generalizing skip off acc with
  | nil =>
    cases h
    exact ⟨[], by rw [List.append_nil], List.drop_nil⟩
  | cons b rest ih =>
    cases skip with
    | succ k => exact ih h
    | zero =>
      cases hd : decodeRecord tm (b :: rest) with
      | bad sub =>
        rw [decodeFrom_bad tm cap b rest sub off acc hd] at h
        cases h
      | ok i left =>
        simp only [decodeFrom, hd] at h
        split at h
        · cases h
        · obtain ⟨added, hprog, hleft⟩ := ih h
          obtain ⟨-, hbs⟩ := (decodeRecord_eq_ok htm).mp hd
          have hrest : rest = i.payload ++ left := (List.cons.inj hbs).2
          have hdrop : rest.drop (rest.length - left.length) = left := by
            rw [hrest]
            exact List.drop_left' (by simp)
          exact ⟨i :: added, by rw [hprog, List.append_assoc, List.singleton_append],
            by rw [List.drop_zero, encodeProgram, ← hleft, hdrop, hbs]⟩

/-- R82: "every image that decodes is the encoding of its program". -/
theorem encodeProgram_of_decode {tm : TagMap} (htm : tm.wf = true) {cap : Nat} {image : List Byte} {prog : List Instr}
    (h : decode tm cap image = .loaded prog) : encodeProgram tm prog = image := by
  obtain ⟨added, rfl, himage⟩ := encodeProgram_of_decodeFrom htm h
  exact himage.symm

theorem decode_encodeProgram {tm : TagMap} (htm : tm.wf = true) {cap : Nat} {prog : List Instr}
    (hwf : ∀ i ∈ prog, i.wf = true) (hcap : prog.length ≤ cap) :
    decode tm cap (encodeProgram tm prog) = .loaded prog := by
  simpa [decodeFrom] using decode_encodeProgram_append htm hwf hcap []

/-- Settles O1: an instruction is a program of one; programs decode record by record, and the converse is the
induction over the image. -/
theorem roundTripOfInstructionsProgramsImages : Obligations.RoundTripOfInstructionsProgramsImages := by
  intro tm cap htm
  refine ⟨fun i hi hcap => ?_, fun prog hwf hcap => decode_encodeProgram htm hwf hcap,
    fun image prog h => encodeProgram_of_decode htm h⟩
  exact decode_encodeProgram htm (List.forall_mem_singleton.mpr hi) hcap

/-- Settles O5: the tag by `opcodeOf`, the operand patterns by the number of fields of each format. -/
theorem unknownTagStopsTheLoad : Obligations.UnknownTagStopsTheLoad := by
  constructor
  · intro tm cap prog t rest htm hwf hcap ht
    exact decode_bad_after_program htm hwf hcap (List.cons_ne_nil _ _) (decodeRecord_unknownTag ht rest)
  · intro tm op rest htm hop hlen
    obtain ⟨i, left, hread⟩ := readPayload_of_length hop hlen
    obtain ⟨-, hi, hrest⟩ := readPayload_eq_ok.mp hread
    exact ⟨i, left, by rw [decodeRecord_tag htm, hread], hi, hrest⟩

/-- Settles O6: the cut by `decodeRecord_cut`, the converse by `encodeProgram_of_decode`. -/
theorem imageEndsOnlyAtARecordBoundary : Obligations.ImageEndsOnlyAtARecordBoundary := by
  intro tm cap htm
  refine ⟨rfl, fun prog i k hwf hi hcap hpos hk => ?_, fun image prog h => (encodeProgram_of_decode htm h).symm⟩
  have hcut : decodeRecord tm ((encode tm i).take k) = .bad .truncated :=
    decodeRecord_cut htm hi (List.take_append_drop k _) (by simpa using hk)
  have hne : (encode tm i).take k ≠ [] := by
    rw [Ne, List.take_eq_nil_iff, not_or]
    exact ⟨by omega, encode_ne_nil tm i⟩
  exact decode_bad_after_program htm hwf hcap hne hcut

/-- Settles O7: the record decodes, and the program fills `PROG_CAP`. -/
theorem recordPastProgCapIsTooLarge : Obligations.RecordPastProgCapIsTooLarge := by
  intro tm prog i rest htm hwf hi
  rw [decode_encodeProgram_append htm hwf (Nat.le_refl _)]
  exact decodeFrom_full tm (List.append_ne_nil_of_left_ne_nil (encode_ne_nil tm i) rest)
    ((decodeRecord_eq_ok htm).mpr ⟨hi, rfl⟩) _ prog

/-- Settles O8: the record's outcome is `decodeRecord_invalidUtf8`. -/
theorem invalidUtf8StopsTheLoad : Obligations.InvalidUtf8StopsTheLoad := by
  intro tm cap prog s rest htm hwf hcap hs hu
  exact decode_bad_after_program htm hwf hcap (List.append_ne_nil_of_left_ne_nil (encode_ne_nil tm _) rest)
    (decodeRecord_invalidUtf8 htm hs hu rest)

/-- Settles O10: by evaluation of the written-out words. -/
theorem sampleWordsDecode : Obligations.SampleWordsDecode := by
  refine ⟨?_, ?_, ?_, ?_, ?_, ?_⟩ <;> decide

end Sys2Proof
end

section
/-! UTF-8 (R75): the scan accepts exactly the encodings of scalar values. After the first byte of a character the state
of the scan says how many bytes are due and which numbers their low six bits may spell. -/

namespace Sys2Proof

/-! ### The bytes that are due -/

/-- How many continuation bytes are due. -/
def Utf8State.due (st : Utf8State) : Nat :=
  match st with
  | .start => 0
  | .tail1 => 1
  | .tail2 | .afterE0 | .afterED => 2
  | .tail3 | .afterF0 | .afterF4 => 3

theorem Utf8State.due_eq_zero {st : Utf8State} : st.due = 0 ↔ st = .start := by
  cases st <;> simp [Utf8State.due]

/-- Which numbers the bytes that are due may spell, six bits a byte. -/
def Utf8State.Allows (st : Utf8State) (x : Nat) : Prop :=
  match st with
  | .start => x < 1
  | .tail1 => x < 64
  | .tail2 => x < 4096
  | .tail3 => x < 262144
  | .afterE0 => 0x800 ≤ x ∧ x < 4096
  | .afterED => x < 0x800
  | .afterF0 => 0x10000 ≤ x ∧ x < 262144
  | .afterF4 => x < 0x10000

/-- The last `n` continuation bytes of a number. -/
def contBytes (n x : Nat) : List Byte :=
  match n with
  | 0 => []
  | k + 1 => BitVec.ofNat 8 (0x80 + x / 64 ^ k % 64) :: contBytes k x

/-- Only the low `6 n` bits of the number are written. -/
theorem contBytes_add_mul (n d x : Nat) {m : Nat} (h : n ≤ m) : contBytes n (d * 64 ^ m + x) = contBytes n x := by
  induction n with
  | zero => rfl
  | succ n ih =>
    have hdigit : (d * 64 ^ m + x) / 64 ^ n % 64 = x / 64 ^ n % 64 := by
      obtain ⟨k, rfl⟩ := Nat.exists_eq_add_of_lt h
      rw [show d * 64 ^ (n + k + 1) + x = 64 ^ n * (64 * (d * 64 ^ k)) + x by ring,
        Nat.mul_add_div (by positivity), Nat.mul_add_mod]
    rw [contBytes, contBytes, hdigit, ih (by omega)]

theorem Utf8State.Allows.lt {st : Utf8State} {x : Nat} (h : st.Allows x) : x < 64 ^ st.due := by
  cases st <;> simp only [Utf8State.Allows] at h <;> simp only [Utf8State.due] <;> omega

/-- A continuation byte is six bits of the number, and the next state allows what the lower bits may spell. -/
theorem utf8Next_eq_some {st st' : Utf8State} {b : Byte} (hst : st ≠ .start) (h : utf8Next st b = some st') :
    st.due = st'.due + 1 ∧ ∃ d < 64, b = BitVec.ofNat 8 (0x80 + d) ∧
      ∀ x, st'.Allows x → st.Allows (d * 64 ^ st'.due + x) := by
  have hb : b = BitVec.ofNat 8 (0x80 + (b.toNat - 0x80)) ∨ b.toNat < 0x80 := by
    by_cases hlow : b.toNat < 0x80
    · exact .inr hlow
    · rw [Nat.add_sub_cancel' (by omega), BitVec.ofNat_toNat, BitVec.setWidth_eq]
      exact .inl rfl
  cases st <;> simp only [utf8Next, utf8Range, Option.ite_none_right_eq_some, Option.some.injEq] at h
  case start => exact absurd rfl hst
  all_goals
    obtain ⟨⟨hlo, hhi⟩, rfl⟩ := h
    refine ⟨rfl, b.toNat - 0x80, by omega, hb.resolve_right (by omega), fun x hx => ?_⟩
    simp only [Utf8State.Allows, Utf8State.due] at hx ⊢
    omega

/-- The first continuation byte of an allowed number is accepted, and the lower bits are allowed next. -/
theorem utf8Next_of_allows {st : Utf8State} {n x : Nat} (hn : st.due = n + 1) (hx : st.Allows x) :
    ∃ st', utf8Next st (BitVec.ofNat 8 (0x80 + x / 64 ^ n % 64)) = some st' ∧ st'.due = n ∧
      st'.Allows (x % 64 ^ n) := by
  have hbyte : (BitVec.ofNat 8 (0x80 + x / 64 ^ n % 64)).toNat = 0x80 + x / 64 ^ n % 64 := by
    rw [BitVec.toNat_ofNat]
    omega
  cases st <;> simp only [Utf8State.due] at hn
  case start => exact absurd hn (by omega)
  all_goals
    obtain rfl := Nat.succ.inj hn
    simp only [utf8Next, utf8Range, hbyte, Option.ite_none_right_eq_some, Option.some.injEq]
    simp only [Utf8State.Allows] at hx
    refine ⟨_, ⟨?_, rfl⟩, rfl, ?_⟩
    · omega
    · simp only [Utf8State.Allows]
      omega

theorem mul_add_div_pow {n d x : Nat} (hx : x < 64 ^ n) : (d * 64 ^ n + x) / 64 ^ n = d := by
  rw [Nat.mul_comm, Nat.mul_add_div (by positivity), Nat.div_eq_of_lt hx, Nat.add_zero]

theorem contBytes_succ {n d x : Nat} (hd : d < 64) (hx : x < 64 ^ n) :
    contBytes (n + 1) (d * 64 ^ n + x) = BitVec.ofNat 8 (0x80 + d) :: contBytes n x := by
  have hdigit : (d * 64 ^ n + x) / 64 ^ n % 64 = d := by
    rw [mul_add_div_pow hx, Nat.mod_eq_of_lt hd]
  rw [contBytes, hdigit, contBytes_add_mul n d x (Nat.le_refl n)]

theorem contBytes_mod (n x : Nat) : contBytes n (x % 64 ^ n) = contBytes n x := by
  conv_rhs => rw [← Nat.div_add_mod' x (64 ^ n)]
  exact (contBytes_add_mul n _ _ (Nat.le_refl n)).symm

/-- What the scan accepts inside a character begins with the bytes of an allowed number. -/
theorem exists_contBytes_of_utf8Scan {st : Utf8State} {bs : List Byte} (h : utf8Scan st bs = true) :
    ∃ x rest, st.Allows x ∧ bs = contBytes st.due x ++ rest ∧ validUtf8 rest = true := by
  induction bs generalizing st with
  | nil =>
    obtain rfl : st = .start := of_decide_eq_true h
    exact ⟨0, [], Nat.zero_lt_one, rfl, rfl⟩
  | cons b bs ih =>
    by_cases hst : st = .start
    · subst hst
      exact ⟨0, b :: bs, Nat.zero_lt_one, rfl, h⟩
    · rw [utf8Scan] at h
      split at h
      · rename_i st' hnext
        obtain ⟨hdue, d, hd, rfl, hallows⟩ := utf8Next_eq_some hst hnext
        obtain ⟨x, rest, hx, rfl, hrest⟩ := ih h
        exact ⟨_, rest, hallows x hx, by rw [hdue, contBytes_succ hd hx.lt, List.cons_append], hrest⟩
      · cases h

/-- The scan passes over the bytes of an allowed number. -/
theorem utf8Scan_contBytes {st : Utf8State} {n x : Nat} (hn : st.due = n) (hx : st.Allows x) (rest : List Byte) :
    utf8Scan st (contBytes n x ++ rest) = validUtf8 rest := by
  induction n generalizing st x with
  | zero =>
    obtain rfl : st = .start := Utf8State.due_eq_zero.mp hn
    rfl
  | succ n ih =>
    obtain ⟨st', hnext, hdue, hx'⟩ := utf8Next_of_allows hn hx
    rw [contBytes, List.cons_append, utf8Scan, hnext, ← contBytes_mod]
    exact ih hdue hx'

/-! ### The first byte -/

/-- The first bytes after which a state is entered. -/
def Utf8State.Leads (st : Utf8State) (n : Nat) : Prop :=
  match st with
  | .start => n ≤ 0x7F
  | .tail1 => 0xC2 ≤ n ∧ n ≤ 0xDF
  | .tail2 => 0xE1 ≤ n ∧ n ≤ 0xEF ∧ n ≠ 0xED
  | .tail3 => 0xF1 ≤ n ∧ n ≤ 0xF3
  | .afterE0 => n = 0xE0
  | .afterED => n = 0xED
  | .afterF0 => n = 0xF0
  | .afterF4 => n = 0xF4

theorem utf8Lead_eq_some {st : Utf8State} {b : Byte} : utf8Lead b = some st ↔ st.Leads b.toNat := by
  constructor
  · fun_cases utf8Lead b
    all_goals
      intro h
      cases h
    all_goals
      simp only [Utf8State.Leads]
      omega
  · intro h
    cases st <;> simp only [Utf8State.Leads] at h <;> grind [utf8Lead]

/-- The state that the first byte of a code point's encoding leads to. -/
def stateAfterLead (c : Nat) : Utf8State :=
  if c < 0x80 then .start
  else if c < 0x800 then .tail1
  else if c < 0x1000 then .afterE0
  else if c < 0xD000 then .tail2
  else if c < 0xE000 then .afterED
  else if c < 0x10000 then .tail2
  else if c < 0x40000 then .afterF0
  else if c < 0x100000 then .tail3
  else .afterF4

/-- The bits that mark the first byte of a character with `n` continuation bytes. -/
def leadMark (n : Nat) : Nat :=
  match n with
  | 0 => 0
  | 1 => 0xC0
  | 2 => 0xE0
  | _ => 0xF0

/-- R75: the first byte of a code point's encoding. -/
def leadByte (c : Nat) : Byte :=
  BitVec.ofNat 8 (leadMark (stateAfterLead c).due + c / 64 ^ (stateAfterLead c).due)

theorem utf8Bytes_eq_cons (c : Nat) : utf8Bytes c = leadByte c :: contBytes (stateAfterLead c).due c := by
  unfold leadByte
  fun_cases stateAfterLead c <;> simp [utf8Bytes, Utf8State.due, leadMark, contBytes, *] <;> omega

/-- R75: the scan accepts the first byte of a scalar value and then allows its lower bits. -/
theorem stateAfterLead_spec {c : Nat} (hc : IsScalarValue c) :
    utf8Lead (leadByte c) = some (stateAfterLead c) ∧
      (stateAfterLead c).Allows (c % 64 ^ (stateAfterLead c).due) := by
  rw [utf8Lead_eq_some, leadByte, BitVec.toNat_ofNat]
  fun_cases stateAfterLead c <;> simp only [Utf8State.Leads, Utf8State.Allows, Utf8State.due, leadMark] <;> omega

/-- R75: every first byte that the scan accepts, with bits that it then allows, is that of a scalar value. -/
theorem exists_scalarValue_of_lead {st : Utf8State} {b : Byte} {x : Nat} (hb : utf8Lead b = some st)
    (hx : st.Allows x) :
    ∃ v, IsScalarValue (v * 64 ^ st.due + x) ∧ stateAfterLead (v * 64 ^ st.due + x) = st ∧
      leadByte (v * 64 ^ st.due + x) = b := by
  have hlead := utf8Lead_eq_some.mp hb
  have hstate : IsScalarValue ((b.toNat - leadMark st.due) * 64 ^ st.due + x) ∧
      stateAfterLead ((b.toNat - leadMark st.due) * 64 ^ st.due + x) = st ∧ leadMark st.due ≤ b.toNat := by
    unfold stateAfterLead
    cases st <;> simp only [Utf8State.Leads, Utf8State.Allows, Utf8State.due, leadMark] at hlead hx ⊢
    all_goals
      refine ⟨by omega, ?_, by omega⟩
      grind
  obtain ⟨hscalar, hst, hle⟩ := hstate
  refine ⟨_, hscalar, hst, ?_⟩
  rw [leadByte, hst, mul_add_div_pow hx.lt, Nat.add_sub_cancel' hle, BitVec.ofNat_toNat, BitVec.setWidth_eq]

/-! ### Whole characters -/

theorem validUtf8_utf8Bytes_append {c : Nat} (hc : IsScalarValue c) (rest : List Byte) :
    validUtf8 (utf8Bytes c ++ rest) = validUtf8 rest := by
  obtain ⟨hlead, hallows⟩ := stateAfterLead_spec hc
  rw [utf8Bytes_eq_cons, List.cons_append, validUtf8, utf8Scan, utf8Next, hlead, ← contBytes_mod]
  exact utf8Scan_contBytes rfl hallows rest

theorem exists_utf8Bytes_of_validUtf8 {b : Byte} {bs : List Byte} (h : validUtf8 (b :: bs) = true) :
    ∃ c rest, IsScalarValue c ∧ b :: bs = utf8Bytes c ++ rest ∧ validUtf8 rest = true := by
  rw [validUtf8, utf8Scan] at h
  split at h
  · rename_i st hlead
    obtain ⟨x, rest, hx, rfl, hrest⟩ := exists_contBytes_of_utf8Scan h
    obtain ⟨v, hscalar, hst, hbyte⟩ := exists_scalarValue_of_lead hlead hx
    refine ⟨_, rest, hscalar, ?_, hrest⟩
    rw [utf8Bytes_eq_cons, hst, hbyte, contBytes_add_mul _ _ _ (Nat.le_refl _), List.cons_append]
  · cases h

theorem validUtf8_flatMap {cs : List Nat} (hcs : ∀ c ∈ cs, IsScalarValue c) :
    validUtf8 (cs.flatMap utf8Bytes) = true := by
  induction cs with
  | nil => rfl
  | cons c cs ih =>
    obtain ⟨hc, hcs⟩ := List.forall_mem_cons.mp hcs
    rw [List.flatMap_cons, validUtf8_utf8Bytes_append hc, ih hcs]

/-- A character takes at least one byte, so the text that is left is shorter. -/
theorem exists_flatMap_of_validUtf8 (bs : List Byte) (h : validUtf8 bs = true) :
    ∃ cs : List Nat, (∀ c ∈ cs, IsScalarValue c) ∧ bs = cs.flatMap utf8Bytes := by
  cases bs with
  | nil => exact ⟨[], by simp, rfl⟩
  | cons b bs =>
    obtain ⟨c, rest, hc, hbs, hrest⟩ := exists_utf8Bytes_of_validUtf8 h
    have hshort : rest.length < (b :: bs).length := by
      rw [hbs, utf8Bytes_eq_cons, List.length_append, List.length_cons]
      omega
    obtain ⟨cs, hcs, rfl⟩ := exists_flatMap_of_validUtf8 rest hrest
    exact ⟨c :: cs, List.forall_mem_cons.mpr ⟨hc, hcs⟩, by rw [hbs, List.flatMap_cons]⟩
termination_by bs.length

/-- Settles O9: character by character, in both directions. -/
theorem validUtf8IsScalarValueEncodings : Obligations.ValidUtf8IsScalarValueEncodings := by
  intro bs
  constructor
  · exact exists_flatMap_of_validUtf8 bs
  · rintro ⟨cs, hcs, rfl⟩
    exact validUtf8_flatMap hcs

end Sys2Proof
end

section
/-! The turns of the machine (R100, R101, R105, R108): which turn is the engine's, that every turn answers, and how STATE
changes. -/

namespace Sys2Proof.Machine

/-! ### The turn by the schedule (R55, R101) -/

theorem step_of_no_event {s : State} (he : s.events = []) : step s = engineTurn s := by
  simp only [step, he]

theorem step_of_event {s : State} {e : HostEvent} {rest : List HostEvent} (he : s.events = e :: rest) :
    step s = hostTurn e { s with events := rest } := by
  simp only [step, he]

/-- The next entry of the schedule gives the turn to the engine. -/
theorem step_of_engineTurn {s : State} {rest : List HostEvent} (he : s.events = .engineTurn :: rest) :
    step s = engineTurn { s with events := rest } := by
  rw [step_of_event he, hostTurn]

theorem engineTurn_of_fetch {s : State} {i : Instr} (hr : s.status.state = .running) (hf : s.fetch = some i) :
    engineTurn s = exec i s := by
  simp only [engineTurn, hr, hf]

theorem engineTurn_of_fetch_none {s : State} (hr : s.status.state = .running) (hf : s.fetch = none) :
    engineTurn s = .next (s.haltClean .pcOverrun) := by
  simp only [engineTurn, hr, hf]

theorem fetch_of_lt {s : State} (h : s.pc.toNat < s.prog.length) : s.fetch = some s.prog[s.pc.toNat] :=
  List.getElem?_eq_getElem h

theorem fetch_of_ge {s : State} (h : s.prog.length ≤ s.pc.toNat) : s.fetch = none :=
  List.getElem?_eq_none h

/-- Settles O14: both kinds of the engine's turn fetch from the same P and pc. -/
theorem stepRunsFetchedInstruction : Obligations.StepRunsFetchedInstruction := by
  intro s i hr hf
  constructor
  · intro he
    exact step_of_engineRuns ⟨he, hr⟩ hf
  · intro rest he
    rw [step_of_engineTurn he]
    exact engineTurn_of_fetch hr hf

/-- Settles O16: the fetch by its bound, and both kinds of the engine's turn where it gives nothing. -/
theorem pcPastTheEndHaltsCleanly : Obligations.PcPastTheEndHaltsCleanly := by
  refine ⟨fun s h => fetch_of_lt h, fun s hrun hpc => ?_, fun s rest hr he hpc => ?_⟩
  · obtain ⟨he, hr⟩ := hrun
    rw [step_of_no_event he]
    exact engineTurn_of_fetch_none hr (fetch_of_ge hpc)
  · rw [step_of_engineTurn he]
    exact engineTurn_of_fetch_none hr (fetch_of_ge hpc)

/-! ### Every instruction answers a next state (R105, R107) -/

theorem concludePush_answers (v : Word) (s : State) : ∃ t, concludePush v s = .next t := by
  rcases concludePush_cases s v with ⟨-, h⟩ | ⟨-, h⟩ <;> exact ⟨_, h⟩

theorem concludeWrite_answers (bytes : List Byte) (s : State) : ∃ t, concludeWrite bytes s = .next t := by
  unfold concludeWrite
  split <;> exact conclude_next _ _

theorem orRaise_answers {α : Type} (check : Option α) (e : Err) (s : State)
    {f : α → Host.Outcome State Fault Refusal} (hf : ∀ x, ∃ t, f x = .next t) :
    ∃ t, orRaise check e s f = .next t := by
  cases check with
  | none => exact conclude_next (.raise e) s
  | some x => exact hf x

theorem branchOn_answers (test : Word → Word → Bool) (a b u : Word) (s : State) :
    ∃ t, branchOn test a b u s = .next t := by
  rw [branchOn_eq]
  refine orRaise_answers _ _ _ fun p => orRaise_answers _ _ _ fun q => ?_
  split <;> exact conclude_next _ _

theorem concludeLine_answers (s : State) : ∃ t, concludeLine s = .next t := by
  rw [concludeLine_eq]
  exact orRaise_answers _ _ _ fun v => concludePush_answers v _

theorem concludePartialLine_answers (s : State) : ∃ t, concludePartialLine s = .next t := by
  unfold concludePartialLine
  split
  · exact concludeLine_answers s
  · exact conclude_next _ _

/-- R151: In answers whether or not the listed bytes hold its terminator, and whatever the port answers after them. -/
theorem execInLine_answers (s : State) : ∃ t, execInLine s = .next t := by
  unfold execInLine
  split
  · exact concludeLine_answers _
  · split
    · split
      · exact concludeLine_answers _
      · exact conclude_next _ _
    · split
      · exact conclude_next _ _
      · exact concludePartialLine_answers _
    · exact conclude_next _ _
    · exact conclude_next _ _

theorem execInByte_answers (s : State) : ∃ t, execInByte s = .next t := by
  unfold execInByte
  split
  · exact concludePush_answers _ _
  all_goals exact conclude_next _ _

/-- R105: no instruction faults and none is refused. -/
theorem exec_answers (i : Instr) (s : State) : ∃ t, exec i s = .next t := by
  cases i with
  | push v => exact concludePush_answers v s
  | out p =>
    rw [exec_out_eq]
    exact orRaise_answers _ _ _ fun q => concludeWrite_answers _ s
  | inLine => exact execInLine_answers s
  | outStr str => exact concludeWrite_answers _ s
  | copy p =>
    rw [exec_copy_eq]
    exact orRaise_answers _ _ _ fun q => concludePush_answers _ s
  | add a b =>
    rw [exec_add_eq]
    refine orRaise_answers _ _ _ fun p => orRaise_answers _ _ _ fun q => ?_
    split
    · exact conclude_next _ _
    · exact orRaise_answers _ _ _ fun r => conclude_next _ _
  | gt a b u => exact branchOn_answers _ a b u s
  | eq a b u => exact branchOn_answers _ a b u s
  | jmp u => exact conclude_next (.jump u) s
  | dec p =>
    rw [exec_dec_eq]
    exact orRaise_answers _ _ _ fun q => orRaise_answers _ _ _ fun r => conclude_next _ _
  | inc p =>
    rw [exec_inc_eq]
    exact orRaise_answers _ _ _ fun q => orRaise_answers _ _ _ fun r => conclude_next _ _
  | inByte => exact execInByte_answers s
  | outByte p =>
    rw [exec_outByte_eq]
    exact orRaise_answers _ _ _ fun q => orRaise_answers _ _ _ fun b => concludeWrite_answers _ s

/-! ### Every turn answers, but for a load under illegal parameters -/

theorem engineTurn_answers (s : State) : ∃ t, engineTurn s = .next t := by
  unfold engineTurn
  split
  · exact ⟨_, rfl⟩
  · split
    · exact ⟨_, rfl⟩
    · exact exec_answers _ s
  · exact ⟨_, rfl⟩
  · exact ⟨_, rfl⟩

/-- R78, R231: a load answers, or the parameters are ones that R7 or R72 rules out (log 11). -/
theorem hostLoad_answers (s : State) (image : List Byte) :
    (∃ t, s.hostLoad image = .next t) ∨
    (s.hostLoad image = .fault .badParams ∧ s.cfg.wf = false ∧ s.status.state = .idle) := by
  unfold State.hostLoad
  by_cases hidle : s.status.state = .idle
  · cases hwf : s.cfg.wf with
    | false => exact .inr ⟨by simp [hidle], rfl, hidle⟩
    | true =>
      left
      simp only [hidle, if_true]
      split <;> exact ⟨_, rfl⟩
  · exact .inl ⟨s, by simp [hidle]⟩

/-- Settles O25: by the kind of turn; of all turns only a load can fault. -/
theorem onlyBadParametersStopAStep : Obligations.OnlyBadParametersStopAStep := by
  intro s
  cases he : s.events with
  | nil =>
    rw [step_of_no_event he]
    exact .inl (engineTurn_answers s)
  | cons e rest =>
    rw [step_of_event he]
    cases e with
    | engineTurn => exact .inl (engineTurn_answers _)
    | reset => exact .inl ⟨_, rfl⟩
    | load image =>
      rcases hostLoad_answers { s with events := rest } image with ht | ⟨hfault, hwf, hidle⟩
      · exact .inl ht
      · exact .inr ⟨hfault, hwf, hidle, image, rest, rfl⟩
    | answerInput bytes fin => exact .inl ⟨_, rfl⟩
    | answerOutput replies fin => exact .inl ⟨_, rfl⟩

/-! ### How STATE changes (R100) -/

theorem engineTurn_state {s t : State} (h : engineTurn s = .next t) :
    if s.status.state = .running then t.status.state ≠ .idle else t.status.state = s.status.state := by
  rcases engineTurn_cases h with ⟨hne, rfl⟩ | ⟨hr, ⟨-, rfl⟩ | ⟨i, -, hc⟩⟩
  · rw [if_neg hne]
  · rw [if_pos hr]
    simp [Status.clean]
  · rw [if_pos hr]
    exact hc.not_idle hr

theorem hostLoad_state {s t : State} {image : List Byte} (h : s.hostLoad image = .next t) :
    if s.status.state = .idle then t.status.state = .running ∨ t.status.state = .haltedError
    else t.status.state = s.status.state := by
  rcases hostLoad_cases h with ⟨hne, rfl⟩ | ⟨hidle, ⟨prog, -, -, rfl⟩ | ⟨sub, offset, -, rfl⟩⟩
  · rw [if_neg hne]
  · rw [if_pos hidle]
    exact .inl rfl
  · rw [if_pos hidle]
    exact .inr rfl

/-- Settles O20: by the kind of turn. -/
theorem stateTransitionsFollowTheTable : Obligations.StateTransitionsFollowTheTable := by
  intro s t h
  obtain ⟨rest, ⟨⟨he, -⟩ | he, ht⟩ | ⟨he, rfl⟩ | ⟨image, he, hl⟩ | ⟨bytes, fin, he, rfl⟩ |
    ⟨replies, fin, he, rfl⟩⟩ := step_cases h <;> rw [he]
  · exact (engineTurn_state ht :)
  · exact (engineTurn_state ht :)
  · rfl
  · exact (hostLoad_state hl :)
  · exact congrArg Status.state (State.answerInput_status _ bytes fin)
  · rfl

/-! ### The halted states (R108) -/

theorem SameEngine.refl (s : State) : SameEngine s s := sameEngine_events s s.events

theorem SameEngine.trans {s t u : State} (h : SameEngine s t) (h' : SameEngine t u) : SameEngine s u where
  prog := h'.prog.trans h.prog
  stack := h'.stack.trans h.stack
  pc := h'.pc.trans h.pc
  status := h'.status.trans h.status
  errInfo := h'.errInfo.trans h.errInfo
  inPos := h'.inPos.trans h.inPos
  lineBuf := h'.lineBuf.trans h.lineBuf
  outTaken := h'.outTaken.trans h.outTaken
  output := h'.output.trans h.output
  cfg := h'.cfg.trans h.cfg
  inByteAt k hk := by
    have hb := h.inByteAt k hk
    rw [h'.inByteAt k (by rwa [hb]), hb]

/-- R108: the two terminal states, in which a turn of the engine and a load do nothing. -/
def State.Halted (s : State) : Prop := s.status.state = .haltedClean ∨ s.status.state = .haltedError

theorem State.Halted.not_running {s : State} (h : s.Halted) : s.status.state ≠ .running := by
  rcases h with h | h <;> simp [h]

theorem State.Halted.not_idle {s : State} (h : s.Halted) : s.status.state ≠ .idle := by
  rcases h with h | h <;> simp [h]

theorem SameEngine.halted {s t : State} (h : SameEngine s t) (hs : s.Halted) : t.Halted := by
  unfold State.Halted
  rwa [h.status]

/-- R108, R231: in a halted state a turn that is no reset leaves the engine as it is, and takes an entry off the schedule. -/
theorem sameEngine_of_step {s t : State} (hh : s.Halted) (hn : s.noReset) (h : step s = .next t) :
    SameEngine s t ∧ t.noReset := by
  obtain ⟨rest, hturn⟩ := step_cases h
  have hev : SameEngine s { s with events := rest } := sameEngine_events s rest
  have tail {e : HostEvent} (he : s.events = e :: rest) : HostEvent.reset ∉ rest :=
    fun hm => hn (he ▸ List.mem_cons_of_mem e hm)
  rcases hturn with ⟨he, ht⟩ | ⟨he, -⟩ | ⟨image, he, hl⟩ | ⟨bytes, fin, he, rfl⟩ | ⟨replies, fin, he, rfl⟩
  · rcases engineTurn_cases ht with ⟨-, rfl⟩ | ⟨hr, -⟩
    · refine ⟨hev, ?_⟩
      rcases he with ⟨-, rfl⟩ | he
      · exact List.not_mem_nil
      · exact tail he
    · exact absurd hr hh.not_running
  · exact absurd (he ▸ List.mem_cons_self) hn
  · rcases hostLoad_cases hl with ⟨-, rfl⟩ | ⟨hidle, -⟩
    · exact ⟨hev, tail he⟩
    · exact absurd hidle hh.not_idle
  · refine ⟨hev.trans (sameEngine_answerInput _ bytes fin), ?_⟩
    rw [State.noReset, State.answerInput_events]
    exact tail he
  · exact ⟨hev.trans (sameEngine_answerOutput _ replies fin), tail he⟩

/-- R108: over any number of turns without a reset the engine stays as it is. -/
theorem run_of_halted (k : Nat) {s : State} (hh : s.Halted) (hn : s.noReset) :
    ∃ t, Host.Core.run core k s = .next t ∧ SameEngine s t := by
  induction k generalizing s with
  | zero => exact ⟨s, rfl, .refl s⟩
  | succ k ih =>
    rcases onlyBadParametersStopAStep s with ⟨u, hu⟩ | ⟨-, -, hidle, -⟩
    · obtain ⟨hsame, hn'⟩ := sameEngine_of_step hh hn hu
      obtain ⟨t, hrun, ht⟩ := ih (hsame.halted hh) hn'
      exact ⟨t, (run_succ_of_step hu k).trans hrun, hsame.trans ht⟩
    · exact absurd hidle hh.not_idle

/-- Settles O17: by induction on the number of turns, each of which leaves the engine and the accepted output as they are. -/
theorem haltedStateStaysUntilReset : Obligations.HaltedStateStaysUntilReset := by
  intro k s hh hn
  obtain ⟨t, hrun, ht⟩ := run_of_halted k hh hn
  exact ⟨t, hrun, ht.prog, ht.stack, ht.pc, ht.status, ht.errInfo, ht.inPos, ht.output⟩

end Sys2Proof.Machine
end

section
/-! Offsets and the capacity of the stack (R102, R103, R104): what an offset out of bounds, a push and a full stack do. -/

namespace Sys2Proof.Machine

/-! ### An offset that names no element (R102, R204) -/

/-- A check of one offset. -/
theorem orRaise_of_offset {k p : Word} {s : State} (hk : k ∈ [p]) (hnone : s.operand k = none)
    (f : Nat × Word → Host.Outcome State Fault Refusal) :
    orRaise (s.operand p) .bounds s f = conclude (.raise .bounds) s := by
  rw [List.mem_singleton] at hk
  rw [← hk, hnone, orRaise_none]

/-- Two offsets are checked in their order, and either of them raises the same error. -/
theorem orRaise_of_offsets {k a b : Word} {s : State} (hk : k ∈ [a, b]) (hnone : s.operand k = none)
    (f : Nat × Word → Nat × Word → Host.Outcome State Fault Refusal) :
    (orRaise (s.operand a) .bounds s fun p => orRaise (s.operand b) .bounds s fun q => f p q) =
      conclude (.raise .bounds) s := by
  rcases List.mem_cons.mp hk with rfl | hk
  · rw [hnone, orRaise_none]
  · cases s.operand a with
    | none => rfl
    | some p => exact orRaise_of_offset hk hnone _

/-- R102, R204: the bounds of all offsets are checked before anything else. -/
theorem exec_of_offset_ge {i : Instr} {s : State} {k : Word} (hk : k ∈ i.offsets) (hl : s.stack.length ≤ k.toNat) :
    exec i s = conclude (.raise .bounds) s := by
  have hnone : s.operand k = none := (operand_eq_none s k).2 hl
  cases i with
  | out p => exact (exec_out_eq p s).trans (orRaise_of_offset hk hnone _)
  | copy p => exact (exec_copy_eq p s).trans (orRaise_of_offset hk hnone _)
  | dec p => exact (exec_dec_eq p s).trans (orRaise_of_offset hk hnone _)
  | inc p => exact (exec_inc_eq p s).trans (orRaise_of_offset hk hnone _)
  | outByte p => exact (exec_outByte_eq p s).trans (orRaise_of_offset hk hnone _)
  | add a b => exact (exec_add_eq a b s).trans (orRaise_of_offsets hk hnone _)
  | gt a b u => exact (branchOn_eq _ a b u s).trans (orRaise_of_offsets hk hnone _)
  | eq a b u => exact (branchOn_eq _ a b u s).trans (orRaise_of_offsets hk hnone _)
  | _ => exact absurd hk List.not_mem_nil

/-! ### What raises BoundsError and StackOverflowError (R102, R104) -/

/-- An instruction that enters an error other than IOError met what the checks of R102 and R104 look for. -/
theorem ExecCase.checks_of_error {i : Instr} {s t : State} {e : Err} (h : ExecCase i s t)
    (hs : s.status.state = .running) (ht : t.status = Status.error e .none) (hio : e ≠ .io) :
    (e = .bounds ↔ ∃ k ∈ i.offsets, s.stack.length ≤ k.toNat) ∧ (e = .stackOverflow → s.full) := by
  cases h with
  | raise p l e' he hio' hb ho =>
    cases ht
    exact ⟨hb, ho⟩
  | writeError =>
    cases ht
    exact absurd rfl hio
  | eof => cases ht
  | _ =>
    have hst : s.status = Status.error e .none := ht
    simp [hst, Status.error] at hs

theorem Raises.checks {i : Instr} {s : State} {e : Err} (h : Raises i s e) (hs : s.status.state = .running)
    (hio : e ≠ .io) :
    (e = .bounds ↔ ∃ k ∈ i.offsets, s.stack.length ≤ k.toNat) ∧ (e = .stackOverflow → s.full) := by
  obtain ⟨t, hexec, hentry⟩ := h
  exact (exec_cases i s t hexec).checks_of_error hs hentry.status hio

/-- Settles O29: the offsets by `resolve`, the raising by the order of the checks, and its converse by the cases of
`exec_cases`. -/
theorem offsetsResolveOrRaiseBounds : Obligations.OffsetsResolveOrRaiseBounds := by
  refine ⟨fun s k hlt => resolve_of_lt s k hlt, fun s k hge => resolve_of_ge s k hge, fun i s k hk hge => ?_,
    fun i s hs h => ?_⟩
  · exact ⟨_, exec_of_offset_ge hk hge, enterError_entry s .bounds⟩
  · exact (h.checks hs (by simp)).1.mp rfl

/-- Settles O31: the error's case of `exec_cases` carries the full stack. -/
theorem overflowOnlyAtCapacity : Obligations.OverflowOnlyAtCapacity :=
  fun _ _ hs h => (h.checks hs (by simp)).2 rfl

/-! ### Offsets after a push (R103) -/

theorem push_eq_some {s t : State} {v : Word} (h : s.push v = some t) : t = s.setStack (s.stack ++ [v]) := by
  by_cases hf : s.full
  · simp [push_of_full s v hf] at h
  · rw [push_of_not_full s v hf] at h
    exact (Option.some.inj h).symm

theorem fromTop_zero_pushed (s : State) (v : Word) : (s.setStack (s.stack ++ [v])).fromTop 0 = some v := by
  simp [State.fromTop]

theorem fromTop_succ_pushed (s : State) (v : Word) (k : Nat) :
    (s.setStack (s.stack ++ [v])).fromTop (k + 1) = s.fromTop k := by
  simp [State.fromTop]

theorem indexOf_zero_pushed (s : State) (v : Word) : (s.setStack (s.stack ++ [v])).indexOf 0 = s.stack.length := by
  simp [State.indexOf]

/-- The index of an element does not move with a push, while its offset grows by one. -/
theorem indexOf_succ_pushed (s : State) (v : Word) {k k' : Word} (hk : k'.toNat = k.toNat + 1) :
    (s.setStack (s.stack ++ [v])).indexOf k' = s.indexOf k := by
  simp only [State.indexOf, State.setStack_stack, List.length_append, List.length_singleton, hk]
  omega

/-- Settles O30: both parts of an operand, the element from the top and its index from the bottom. -/
theorem offsetsShiftByOneAfterPush : Obligations.OffsetsShiftByOneAfterPush := by
  intro s t v h
  obtain rfl := push_eq_some h
  constructor
  · rw [operand_of_some _ 0 v (fromTop_zero_pushed s v), indexOf_zero_pushed]
  · intro k hk
    have hsucc : (k + 1).toNat = k.toNat + 1 := BitVec.toNat_add_of_lt hk
    rw [operand_eq, operand_eq, hsucc, fromTop_succ_pushed, indexOf_succ_pushed s v hsucc]

end Sys2Proof.Machine
end

section
/-! The stack instructions (R120, R121): each is one push, of its immediate or of the element its offset names. -/

namespace Sys2Proof.Machine

/-! ### An instruction that comes down to one push (R104) -/

/-- R104: at capacity the push is what raises the error. -/
theorem raises_stackOverflow_of_concludePush {i : Instr} {s : State} {v : Word} (hexec : exec i s = concludePush v s)
    (hf : s.full) : Raises i s .stackOverflow :=
  ⟨_, hexec.trans (concludePush_of_full s v hf), enterError_entry s .stackOverflow⟩

/-- R104, R105: below capacity the instruction falls through with the value on top, and that is its whole effect. -/
theorem exec_of_concludePush {i : Instr} {s : State} {v : Word} (hexec : exec i s = concludePush v s)
    (hf : ¬ s.full) : exec i s = .next { s with stack := s.stack ++ [v], pc := s.pc + 1 } :=
  hexec.trans (concludePush_of_not_full s v hf)

/-! ### Push (R120) -/

theorem exec_push_eq (v : Word) (s : State) : exec (.push v) s = concludePush v s := rfl

/-- Settles O32: Push is the push of its immediate, so the capacity alone decides how it ends. -/
theorem pushRule : Obligations.PushRule := by
  intro v s
  have hexec := exec_push_eq v s
  exact ⟨rfl, exec_of_concludePush hexec, raises_stackOverflow_of_concludePush hexec⟩

/-! ### Copy (R121) -/

/-- R121: once the offset names an element, Copy is the push of that element. -/
theorem exec_copy_of_fromTop {p v : Word} {s : State} (hv : s.fromTop p.toNat = some v) :
    exec (.copy p) s = concludePush v s := by
  rw [exec_copy_eq, operand_of_some s p v hv, orRaise_some]

/-- R102, R121: an offset past the end raises BoundsError before the capacity is looked at. -/
theorem raises_bounds_of_fromTop_none {i : Instr} {s : State} {k : Word} (hk : k ∈ i.offsets)
    (hnone : s.fromTop k.toNat = none) : Raises i s .bounds :=
  ⟨_, exec_of_offset_ge hk ((fromTop_eq_none s k.toNat).mp hnone), enterError_entry s .bounds⟩

/-- Settles O33: the offset is checked first, then the capacity; after the push the copy is at offset 0 and the element
copied from one offset further down (R103). -/
theorem copyRule : Obligations.CopyRule := by
  intro p s
  refine ⟨rfl, raises_bounds_of_fromTop_none List.mem_cons_self, fun v hv => ?_⟩
  have hexec := exec_copy_of_fromTop hv
  refine ⟨raises_stackOverflow_of_concludePush hexec, fun hf => ⟨_, exec_of_concludePush hexec hf, rfl, ?_, ?_⟩⟩
  · exact fromTop_zero_pushed s v
  · exact (fromTop_succ_pushed s v p.toNat).trans hv

end Sys2Proof.Machine
end

section
/-! The arithmetic instructions (R130 to R133): the range check of each result, the in-place instructions Dec and Inc,
and Add. -/

namespace Sys2Proof.Machine

/-! ### The range checks (R133) -/

/-- R130: a sum that fits, or that may wrap, is the sum of the two words. -/
theorem addChecked_eq_some {wrap : Bool} {x y : Word} (h : x.toNat + y.toNat < 2 ^ 64 ∨ wrap = true) :
    addChecked wrap x y = some (x + y) := by
  by_cases hlt : x.toNat + y.toNat < 2 ^ 64
  · have hsum : BitVec.ofNat 64 (x.toNat + y.toNat) = x + y := by bv_omega
    simp only [addChecked, if_pos hlt, hsum]
  · have hsub : BitVec.ofNat 64 (x.toNat + y.toNat - 2 ^ 64) = x + y := by bv_omega
    simp only [addChecked, if_neg hlt, h.resolve_left hlt, if_true, hsub]

theorem addChecked_eq_none {x y : Word} (h : 2 ^ 64 ≤ x.toNat + y.toNat) : addChecked false x y = none := by
  simp only [addChecked, if_neg (Nat.not_lt.mpr h), Bool.false_eq_true, if_false]

theorem addChecked_comm (wrap : Bool) (x y : Word) : addChecked wrap x y = addChecked wrap y x := by
  simp only [addChecked, Nat.add_comm x.toNat]

theorem decChecked_zero : decChecked 0 = none := rfl

theorem decChecked_eq_some {x r : Word} (h : r.toNat + 1 = x.toNat) : decChecked x = some r := by
  have hr : BitVec.ofNat 64 (x.toNat - 1) = r := by bv_omega
  rw [decChecked, if_neg (by omega), hr]

theorem incChecked_eq_none {x : Word} (h : x.toNat = 2 ^ 64 - 1) : incChecked x = none := if_pos h

theorem incChecked_eq_some {x r : Word} (h : r.toNat = x.toNat + 1) : incChecked x = some r := by
  have hx : x.toNat ≠ 2 ^ 64 - 1 := by have := r.isLt; omega
  rw [incChecked, if_neg hx, ← h, BitVec.ofNat_toNat, BitVec.setWidth_eq]

/-! ### How an arithmetic instruction ends (R105, R201) -/

/-- An instruction that comes down to raising an error raises it from the state it found. -/
theorem raises_of_exec_eq {i : Instr} {s : State} {e : Err} (hexec : exec i s = conclude (.raise e) s) :
    Raises i s e :=
  ⟨_, hexec, enterError_entry s e⟩

/-- R133: a result, where its check passes, becomes the stack `f` of it, and the instruction falls through. -/
def concludeResult (check : Option Word) (f : Word → List Word) (s : State) : Host.Outcome State Fault Refusal :=
  orRaise check .arithmetic s fun r => conclude .fallthrough (s.setStack (f r))

section
variable {i : Instr} {s : State} {check : Option Word} {f : Word → List Word}

theorem raises_arithmetic_of_concludeResult (hexec : exec i s = concludeResult check f s) (hc : check = none) :
    Raises i s .arithmetic :=
  raises_of_exec_eq (by rw [hexec, hc, concludeResult, orRaise_none])

theorem exec_of_concludeResult (hexec : exec i s = concludeResult check f s) {r : Word} (hc : check = some r) :
    exec i s = .next { s with stack := f r, pc := s.pc + 1 } := by
  rw [hexec, hc, concludeResult, orRaise_some]
  rfl

end

/-! ### Dec and Inc (R131, R132) -/

/-- R131: once the offset names an element, Dec is the check of that element less one, in its place. -/
theorem exec_dec_of_fromTop {p x : Word} {s : State} (hx : s.fromTop p.toNat = some x) :
    exec (.dec p) s = concludeResult (decChecked x) (s.stack.set (s.indexOf p)) s := by
  rw [exec_dec_eq, operand_of_some s p x hx, orRaise_some]
  rfl

/-- R132: the same for Inc and the element more one. -/
theorem exec_inc_of_fromTop {p x : Word} {s : State} (hx : s.fromTop p.toNat = some x) :
    exec (.inc p) s = concludeResult (incChecked x) (s.stack.set (s.indexOf p)) s := by
  rw [exec_inc_eq, operand_of_some s p x hx, orRaise_some]
  rfl

/-- Settles O36: the offset is checked first, then the element, and 0 is the one value that the check refuses. -/
theorem decRule : Obligations.DecRule := by
  intro p s
  refine ⟨rfl, raises_bounds_of_fromTop_none List.mem_cons_self, fun x hx => ?_⟩
  have hexec := exec_dec_of_fromTop hx
  constructor
  · rintro rfl
    exact raises_arithmetic_of_concludeResult hexec decChecked_zero
  · intro r hr
    exact exec_of_concludeResult hexec (decChecked_eq_some hr)

/-- Settles O37: the offset is checked first, then the element, and 2^64 - 1 is the one value that the check refuses. -/
theorem incRule : Obligations.IncRule := by
  intro p s
  refine ⟨rfl, raises_bounds_of_fromTop_none List.mem_cons_self, fun x hx => ?_⟩
  have hexec := exec_inc_of_fromTop hx
  constructor
  · intro hmax
    exact raises_arithmetic_of_concludeResult hexec (incChecked_eq_none hmax)
  · intro r hr
    exact exec_of_concludeResult hexec (incChecked_eq_some hr)

/-! ### Add (R130) -/

theorem indexOf_lt {s : State} {k v : Word} (hv : s.fromTop k.toNat = some v) : s.indexOf k < s.stack.length := by
  have hk := fromTop_isSome_lt s k.toNat v hv
  unfold State.indexOf
  omega

/-- R102: two offsets that name elements resolve to one index only where they are the same offset. -/
theorem indexOf_inj {s : State} {a b x y : Word} (ha : s.fromTop a.toNat = some x) (hb : s.fromTop b.toNat = some y) :
    s.indexOf a = s.indexOf b ↔ a = b := by
  have hla := fromTop_isSome_lt s a.toNat x ha
  have hlb := fromTop_isSome_lt s b.toNat y hb
  refine ⟨fun h => BitVec.eq_of_toNat_eq ?_, congrArg s.indexOf⟩
  unfold State.indexOf at h
  omega

/-- R130: once both offsets name elements, equal offsets raise; else the checked sum replaces the two elements. -/
theorem exec_add_of_fromTop {a b x y : Word} {s : State} (hx : s.fromTop a.toNat = some x)
    (hy : s.fromTop b.toNat = some y) :
    exec (.add a b) s =
      if a = b then conclude (.raise .operandAlias) s
      else concludeResult (addChecked s.cfg.addWrap x y)
        (fun r => dropPair s.stack (s.indexOf a) (s.indexOf b) ++ [r]) s := by
  rw [exec_add_eq, operand_of_some s a x hx, operand_of_some s b y hy, orRaise_some, orRaise_some]
  by_cases hab : a = b
  · rw [if_pos hab, if_pos (congrArg s.indexOf hab)]
  · have hne : s.indexOf a ≠ s.indexOf b := mt (indexOf_inj hx hy).mp hab
    rw [if_neg hab, if_neg hne]
    simp only [concludeResult, replacePair_eq s _ _ _ hne]

/-- R130: an offset past the end raises the same error in either place. -/
theorem exec_add_of_fromTop_none {a b k : Word} {s : State} (hk : k = a ∨ k = b) (hnone : s.fromTop k.toNat = none) :
    exec (.add a b) s = conclude (.raise .bounds) s :=
  exec_of_offset_ge (by simpa [Instr.offsets] using hk) ((fromTop_eq_none s k.toNat).mp hnone)

/-- Settles O34: both offsets are checked first, then that they differ, then the sum; two indices in bounds that differ
are what `dropPair` removes. -/
theorem addRule : Obligations.AddRule := by
  intro a b s
  refine ⟨rfl, fun hnone => raises_of_exec_eq (exec_add_of_fromTop_none (.inl rfl) hnone),
    fun hnone => raises_of_exec_eq (exec_add_of_fromTop_none (.inr rfl) hnone), fun x y hx hy => ?_⟩
  have hexec := exec_add_of_fromTop hx hy
  refine ⟨fun hab => raises_of_exec_eq (hexec.trans (if_pos hab)), fun hab hover hwrap => ?_, fun hab hfits => ?_⟩
  · rw [if_neg hab, hwrap] at hexec
    exact raises_arithmetic_of_concludeResult hexec (addChecked_eq_none hover)
  · rw [if_neg hab] at hexec
    refine ⟨x + y, BitVec.toNat_add x y, exec_of_concludeResult hexec (addChecked_eq_some hfits), ?_⟩
    exact dropPair_length s.stack _ _ (mt (indexOf_inj hx hy).mp hab) (indexOf_lt hx) (indexOf_lt hy)

/-- Settles O35: an offset out of bounds ends both forms alike; past the bounds, the test for equal
offsets, the checked sum and the pair removed are all symmetric. -/
theorem addOperandsCommute : Obligations.AddOperandsCommute := by
  intro a b s
  cases hx : s.fromTop a.toNat with
  | none => rw [exec_add_of_fromTop_none (.inl rfl) hx, exec_add_of_fromTop_none (.inr rfl) hx]
  | some x =>
    cases hy : s.fromTop b.toNat with
    | none => rw [exec_add_of_fromTop_none (.inr rfl) hy, exec_add_of_fromTop_none (.inl rfl) hy]
    | some y =>
      rw [exec_add_of_fromTop hx hy, exec_add_of_fromTop hy hx, addChecked_comm, dropPair_comm]
      exact if_congr eq_comm rfl rfl

end Sys2Proof.Machine
end

section
/-! The control-transfer instructions (R140, R141, R142): the two branches over one comparison, the jump, and a target past
the end of the program. -/

namespace Sys2Proof.Machine

/-! ### The target (R101, R142) -/

/-- R142: a target is not checked where it is loaded; past the end, the fetch that follows halts (R101). -/
theorem haltsAtTarget (t : Word) (s : State) : HaltsAtTarget t s := by
  intro hrun hpc
  obtain ⟨-, hhalt, -⟩ := pcPastTheEndHaltsCleanly
  exact hhalt { s with pc := t } hrun hpc

/-! ### A branch over a comparison (R140, R141) -/

/-- Once both offsets name elements, the comparison alone decides how the branch ends. -/
theorem branchOn_of_fromTop (test : Word → Word → Bool) {a b x y : Word} (t : Word) {s : State}
    (hx : s.fromTop a.toNat = some x) (hy : s.fromTop b.toNat = some y) :
    branchOn test a b t s = if test x y then conclude (.jump t) s else conclude .fallthrough s := by
  rw [branchOn_eq, operand_of_some s a x hx, operand_of_some s b y hy, orRaise_some, orRaise_some]

section
variable {i : Instr} {test : Word → Word → Bool} {a b t x y : Word} {s : State}

theorem exec_of_branch_taken (hexec : exec i s = branchOn test a b t s) (hx : s.fromTop a.toNat = some x)
    (hy : s.fromTop b.toNat = some y) (htest : test x y = true) : exec i s = .next { s with pc := t } := by
  rw [hexec, branchOn_of_fromTop test t hx hy, if_pos htest]
  rfl

theorem exec_of_branch_not_taken (hexec : exec i s = branchOn test a b t s) (hx : s.fromTop a.toNat = some x)
    (hy : s.fromTop b.toNat = some y) (htest : test x y = false) : exec i s = .next { s with pc := s.pc + 1 } := by
  rw [hexec, branchOn_of_fromTop test t hx hy, htest, if_neg Bool.false_ne_true]
  rfl

end

/-- A branch over a symmetric comparison does not depend on the order of its offsets: one out of bounds raises the same
error in either place. -/
theorem branchOn_comm {test : Word → Word → Bool} (htest : ∀ x y, test x y = test y x) (a b t : Word) (s : State) :
    branchOn test a b t s = branchOn test b a t s := by
  rw [branchOn_eq, branchOn_eq]
  cases s.operand a with
  | none => cases s.operand b <;> rfl
  | some p =>
    cases s.operand b with
    | none => rfl
    | some q => rw [orRaise_some, orRaise_some, orRaise_some, orRaise_some, htest]

/-! ### Gt and Eq (R140, R141) -/

theorem isGreater_eq_true {x y : Word} (h : y.toNat < x.toNat) : isGreater x y = true := decide_eq_true h

theorem isGreater_eq_false {x y : Word} (h : x.toNat ≤ y.toNat) : isGreater x y = false :=
  decide_eq_false (Nat.not_lt.mpr h)

theorem isEqual_eq_true {x y : Word} (h : x = y) : isEqual x y = true := decide_eq_true h

theorem isEqual_eq_false {x y : Word} (h : x ≠ y) : isEqual x y = false := decide_eq_false h

theorem isEqual_comm (x y : Word) : isEqual x y = isEqual y x := decide_eq_decide.mpr eq_comm

theorem exec_gt_eq (a b t : Word) (s : State) : exec (.gt a b t) s = branchOn isGreater a b t s := rfl

theorem exec_eq_eq (a b t : Word) (s : State) : exec (.eq a b t) s = branchOn isEqual a b t s := rfl

/-- Settles O38: both offsets are checked first, then Gt is the branch over the unsigned comparison. -/
theorem gtRule : Obligations.GtRule := by
  intro a b t s
  have hexec := exec_gt_eq a b t s
  refine ⟨rfl, raises_bounds_of_fromTop_none (by simp [Instr.offsets]),
    raises_bounds_of_fromTop_none (by simp [Instr.offsets]), fun x y hx hy => ⟨fun hgt => ?_, fun hle => ?_⟩,
    haltsAtTarget t s⟩
  · exact exec_of_branch_taken hexec hx hy (isGreater_eq_true hgt)
  · exact exec_of_branch_not_taken hexec hx hy (isGreater_eq_false hle)

/-- Settles O39: the same over the equality of the two elements, which is symmetric. -/
theorem eqRule : Obligations.EqRule := by
  intro a b t s
  have hexec := exec_eq_eq a b t s
  refine ⟨rfl, raises_bounds_of_fromTop_none (by simp [Instr.offsets]),
    raises_bounds_of_fromTop_none (by simp [Instr.offsets]), fun x y hx hy => ⟨fun heq => ?_, fun hne => ?_⟩,
    ?_, haltsAtTarget t s⟩
  · exact exec_of_branch_taken hexec hx hy (isEqual_eq_true heq)
  · exact exec_of_branch_not_taken hexec hx hy (isEqual_eq_false hne)
  · exact branchOn_comm isEqual_comm a b t s

/-! ### Jmp (R142) -/

theorem exec_jmp_eq (t : Word) (s : State) : exec (.jmp t) s = conclude (.jump t) s := rfl

/-- Settles O40: Jmp ends as a jump to its target whatever the state. -/
theorem jmpRule : Obligations.JmpRule := by
  intro t s
  exact ⟨rfl, exec_jmp_eq t s, haltsAtTarget t s⟩

end Sys2Proof.Machine
end

section
/-! Decimal text (R155, R156): the digits of a value, and their reading. -/

namespace Sys2Proof.Machine

/-! ### Digits (R155) -/

theorem digitByte_toNat {d : Nat} (h : d < 10) : (digitByte d).toNat = 0x30 + d := by
  rw [digitByte, BitVec.toNat_ofNat, Nat.mod_eq_of_lt (by omega)]

theorem isDecimalDigit_digitByte {d : Nat} (h : d < 10) : IsDecimalDigit (digitByte d) := by
  rw [IsDecimalDigit, digitByte_toNat h]
  omega

theorem decDigits_of_lt (k : Nat) {n : Nat} (h : n < 10) : decDigits (k + 1) n = [digitByte n] := if_pos h

theorem decDigits_of_ge (k : Nat) {n : Nat} (h : 10 ≤ n) :
    decDigits (k + 1) n = decDigits k (n / 10) ++ [digitByte (n % 10)] := if_neg (Nat.not_lt.mpr h)

/-! ### The text of a value (R155) -/

theorem decDigits_length_le (k n : Nat) : (decDigits k n).length ≤ k := by
  induction k generalizing n with
  | zero => exact Nat.le_refl 0
  | succ k ih =>
    rcases Nat.lt_or_ge n 10 with h | h
    · simp [decDigits_of_lt k h]
    · simpa [decDigits_of_ge k h] using ih (n / 10)

theorem decDigits_length_pos (k n : Nat) : 0 < (decDigits (k + 1) n).length := by
  rcases Nat.lt_or_ge n 10 with h | h
  · simp [decDigits_of_lt k h]
  · simp [decDigits_of_ge k h]

theorem isDecimalDigit_of_mem_decDigits {k n : Nat} {b : Byte} (hb : b ∈ decDigits k n) : IsDecimalDigit b := by
  induction k generalizing n with
  | zero => exact absurd hb List.not_mem_nil
  | succ k ih =>
    rcases Nat.lt_or_ge n 10 with h | h
    · rw [decDigits_of_lt k h, List.mem_singleton] at hb
      exact hb ▸ isDecimalDigit_digitByte h
    · rw [decDigits_of_ge k h, List.mem_append, List.mem_singleton] at hb
      rcases hb with hb | rfl
      · exact ih hb
      · exact isDecimalDigit_digitByte (Nat.mod_lt n (by decide))

/-- R156: the digits in front weigh as many tens more as there are digits after them. -/
theorem decimalValue_append (xs ys : List Byte) :
    decimalValue (xs ++ ys) = decimalValue xs * 10 ^ ys.length + decimalValue ys := by
  induction xs with
  | nil => simp [decimalValue]
  | cons x xs ih =>
    rw [List.cons_append, decimalValue, decimalValue, ih, List.length_append, Nat.pow_add]
    ring

theorem decimalValue_digitByte {d : Nat} (h : d < 10) : decimalValue [digitByte d] = d := by
  simp [decimalValue, digitByte_toNat h]

/-- R155: the digits have the value that they were made from, where there are enough of them. -/
theorem decimalValue_decDigits {k n : Nat} (hn : n < 10 ^ k) : decimalValue (decDigits k n) = n := by
  induction k generalizing n with
  | zero => exact (Nat.lt_one_iff.mp hn).symm
  | succ k ih =>
    rcases Nat.lt_or_ge n 10 with h | h
    · rw [decDigits_of_lt k h, decimalValue_digitByte h]
    · rw [decDigits_of_ge k h, decimalValue_append, ih (Nat.div_lt_of_lt_mul (by omega)),
        decimalValue_digitByte (Nat.mod_lt n (by decide))]
      simp only [List.length_singleton]
      omega

/-- R155: the first digit of a positive number is not 0. -/
theorem exists_head_decDigits {k n : Nat} (hpos : 0 < n) (hn : n < 10 ^ k) :
    ∃ b, (decDigits k n).head? = some b ∧ 0x30 < b.toNat := by
  induction k generalizing n with
  | zero => omega
  | succ k ih =>
    rcases Nat.lt_or_ge n 10 with h | h
    · refine ⟨digitByte n, by rw [decDigits_of_lt k h, List.head?_cons], ?_⟩
      rw [digitByte_toNat h]
      omega
    · obtain ⟨b, hhead, hb⟩ := ih (n := n / 10) (by omega) (Nat.div_lt_of_lt_mul (by omega))
      exact ⟨b, by rw [decDigits_of_ge k h, List.head?_append, hhead, Option.some_or], hb⟩

/-- R155: twenty digits are enough for every u64. -/
theorem toNat_lt_ten_pow (v : Word) : v.toNat < 10 ^ 20 := Nat.lt_trans v.isLt (by decide)

theorem decimalValue_decText (v : Word) : decimalValue (decText v) = v.toNat :=
  decimalValue_decDigits (toNat_lt_ten_pow v)

theorem decText_ne_nil (v : Word) : decText v ≠ [] := List.ne_nil_of_length_pos (decDigits_length_pos 19 v.toNat)

theorem decText_zero : decText 0 = [0x30] := rfl

/-- R155: only the text of 0 begins with the digit 0. -/
theorem eq_zero_of_head_decText {v : Word} (h : (decText v).head? = some 0x30) : v = 0 := by
  by_contra hv
  have hpos : 0 < v.toNat := Nat.pos_of_ne_zero fun h0 => hv (BitVec.eq_of_toNat_eq h0)
  obtain ⟨b, hhead, hb⟩ := exists_head_decDigits hpos (toNat_lt_ten_pow v)
  obtain rfl := Option.some.inj (hhead.symm.trans h)
  exact absurd hb (by decide)

/-- Settles O11: each part is an induction over the digits; a u64 has at most 20 of them. -/
theorem decimalTextIsCanonical : Obligations.DecimalTextIsCanonical := by
  intro v
  refine ⟨decDigits_length_pos 19 v.toNat, decDigits_length_le 20 v.toNat,
    fun b hb => isDecimalDigit_of_mem_decDigits hb, decimalValue_decText v, fun hhead => ?_⟩
  obtain rfl := eq_zero_of_head_decText hhead
  exact ⟨decText_zero, rfl⟩

/-! ### Reading the text (R156) -/

/-- Settles O12: the parser and the grammar ask the same of the body of the line. -/
theorem lineParsesExactlyWhenValid : Obligations.LineParsesExactlyWhenValid := parseU64_eq_some_iff

theorem decimalValue_zeros (n : Nat) : decimalValue (List.replicate n 0x30) = 0 := by
  induction n with
  | zero => rfl
  | succ n ih =>
    rw [List.replicate_succ, decimalValue, ih]
    simp

/-- Settles O13: zeros in front are digits that add nothing to the value. -/
theorem writtenTextReadsBack : Obligations.WrittenTextReadsBack := by
  intro trim v zeros
  rw [parseU64_eq_some_iff]
  refine ⟨[], List.replicate zeros 0x30 ++ decText v, [], by simp, fun _ => ⟨rfl, rfl⟩, by simp, by simp, ?_, ?_, ?_⟩
  · exact List.append_ne_nil_of_right_ne_nil _ (decText_ne_nil v)
  · intro b hb
    rcases List.mem_append.mp hb with hb | hb
    · rw [List.eq_of_mem_replicate hb]
      decide
    · exact isDecimalDigit_of_mem_decDigits hb
  · rw [decimalValue_append, decimalValue_zeros, Nat.zero_mul, Nat.zero_add, decimalValue_decText]

end Sys2Proof.Machine
end

section
/-! The output instructions (R150, R152, R154): past its checks each is one write (R53). -/

namespace Sys2Proof.Machine

/-! ### A write, by what the port does (R53) -/

theorem concludeWrite_of_portOk {s : State} {left : List OutReply} (hk : PortOk s left) (bytes : List Byte) :
    concludeWrite bytes s = .next ((s.setOutput (s.output ++ bytes.drop s.outTaken) left 0).setPc (s.pc + 1)) := by
  have hoffer := offer_ok s (bytes.drop s.outTaken) left hk
  rw [concludeWrite_of_ok bytes s (by rw [hoffer]), hoffer]

theorem concludeWrite_of_fails {s : State} {k : Nat} {left : List OutReply} (hk : PortFails s k left)
    (bytes : List Byte) :
    concludeWrite bytes s =
      .next ((s.setOutput (s.output ++ (bytes.drop s.outTaken).take k) left 0).enterError .io .none s.pc) := by
  have hoffer := offer_fails s (bytes.drop s.outTaken) k left hk
  rw [concludeWrite_of_ioerr bytes s (by rw [hoffer]), hoffer]

/-- R53, R54, R203: an instruction that offers `bytes` has no effect but that write. -/
theorem writesThenFallsThrough_of_pendingWrite {i : Instr} {bytes : List Byte} {s : State}
    (hp : pendingWrite i s = some bytes) : WritesThenFallsThrough i bytes s := by
  have hexec := exec_of_pendingWrite hp
  refine ⟨fun left hk => ?_, fun k left hk => ?_, fun k hk => ?_⟩
  · exact hexec.trans (concludeWrite_of_portOk hk bytes)
  · exact ⟨_, hexec.trans (concludeWrite_of_fails hk bytes), by constructor <;> rfl⟩
  · exact hexec.trans (concludeWrite_of_holds hk bytes)

/-! ### Out, OutStr and OutByte -/

/-- Settles O42: the offset is checked first; the element it names gives the bytes of the write. -/
theorem outRule : Obligations.OutRule := by
  intro p s
  refine ⟨rfl, raises_bounds_of_fromTop_none List.mem_cons_self, fun v hv => ?_⟩
  exact writesThenFallsThrough_of_pendingWrite (congrArg (Option.map _) hv)

/-- Settles O43: OutStr has no check, so it is the write of its string. -/
theorem outStrRule : Obligations.OutStrRule := by
  intro str s
  exact ⟨rfl, writesThenFallsThrough_of_pendingWrite rfl⟩

theorem byteChecked_eq_none {v : Word} (h : 255 < v.toNat) : byteChecked v = none := if_neg (Nat.not_le.mpr h)

theorem pendingWrite_outByte {p v : Word} {b : Byte} {s : State} (hv : s.fromTop p.toNat = some v)
    (hb : b.toNat = v.toNat) : pendingWrite (.outByte p) s = some [b] := by
  have hlt := b.isLt
  have hbyte : v.setWidth 8 = b := by bv_omega
  simp only [pendingWrite, hv, if_pos (show v.toNat ≤ 255 by omega), hbyte]

/-- Settles O44: the offset is checked first, then that the element is a byte, and that byte is the write. -/
theorem outByteRule : Obligations.OutByteRule := by
  intro p s
  refine ⟨rfl, raises_bounds_of_fromTop_none List.mem_cons_self, fun v hv => ⟨fun hbig => ?_, fun b hb => ?_⟩⟩
  · refine raises_of_exec_eq ?_
    rw [exec_outByte_eq, operand_of_some s p v hv, orRaise_some, byteChecked_eq_none hbig, orRaise_none]
  · exact writesThenFallsThrough_of_pendingWrite (pendingWrite_outByte hv hb)

end Sys2Proof.Machine
end

section
/-! The input instructions (R151, R153), by the bytes that are there and by the terminal of the input (R50, R52). -/

namespace Sys2Proof.Machine

/-- An error that a read raises after it consumed bytes: R202 leaves the read position open. -/
theorem raises_of_exec_eq_setInput {i : Instr} {s : State} {e : Err} {pos : Nat} {line : List Byte}
    (hexec : exec i s = conclude (.raise e) (s.setInput pos line)) : Raises i s e :=
  ⟨_, hexec, by constructor <;> rfl⟩

/-! ### In where its line is not listed and no byte follows (R151, R205) -/

/-- R52: past the listed bytes, a sequence that is not infinite answers its terminal. -/
theorem inRead_after_unread {s : State} (he : ∀ x, s.inEnd ≠ .endless x) (line : List Byte) :
    let s' := s.setInput (s.inPos + s.unread.length) line
    (s.inEnd = .eof → s'.inRead = (.eof, s')) ∧ (s.inEnd = .ioerr → s'.inRead = (.ioerr, s')) ∧
      (s.inEnd = .stall → s'.inRead = (.waiting, s')) :=
  inRead_of_none (s := s.setInput (s.inPos + s.unread.length) line) (inByteAt_eq_none he (unread_end s))

theorem exec_inLine_of_ioerr {s : State} (hn : newline ∉ s.unread) (he : s.inEnd = .ioerr) :
    exec .inLine s =
      conclude (.raise .io) (s.setInput (s.inPos + s.unread.length) (s.lineBuf ++ s.unread)) := by
  obtain ⟨-, hread, -⟩ := inRead_after_unread (s := s) (by simp [he]) (s.lineBuf ++ s.unread)
  show execInLine s = _
  simp only [execInLine, readLine_of_not_mem s hn, hread he]

/-- R151: at EOF what there is of the line decides. -/
theorem exec_inLine_of_eof {s : State} (hn : newline ∉ s.unread) (he : s.inEnd = .eof) :
    exec .inLine s =
      if s.lineBuf ++ s.unread = [] then
        conclude (.haltClean .inputEof) (s.setInput (s.inPos + s.unread.length) (s.lineBuf ++ s.unread))
      else concludePartialLine (s.setInput (s.inPos + s.unread.length) (s.lineBuf ++ s.unread)) := by
  obtain ⟨hread, -, -⟩ := inRead_after_unread (s := s) (by simp [he]) (s.lineBuf ++ s.unread)
  show execInLine s = _
  simp only [execInLine, readLine_of_not_mem s hn, hread he]
  rfl

/-- R205, D27: with no byte of a line there, EOF halts and leaves all but STATUS. -/
theorem exec_inLine_of_eof_of_nil {s : State} (he : s.inEnd = .eof) (hl : s.lineBuf ++ s.unread = []) :
    exec .inLine s = .next { s with status := Status.clean .inputEof } := by
  obtain ⟨hline, hunread⟩ := List.append_eq_nil_iff.mp hl
  have hsame : s.setInput (s.inPos + s.unread.length) (s.lineBuf ++ s.unread) = s := by
    rw [hl, hunread, List.length_nil, ← hline]
    rfl
  rw [exec_inLine_of_eof (by simp [hunread]) he, if_pos hl, hsame]
  rfl

theorem concludePartialLine_of_parse {s : State} (h : s.cfg.inEofPartial = .parse) :
    concludePartialLine s = concludeLine s := by
  rw [concludePartialLine, h]

theorem concludePartialLine_of_parseError {s : State} (h : s.cfg.inEofPartial = .parseError) :
    concludePartialLine s = conclude (.raise .parse) s := by
  rw [concludePartialLine, h]

/-- Settles O45: the line is listed, or the byte after the listed ones decides, or the terminal does. -/
theorem inRule : Obligations.InRule := by
  intro s
  refine ⟨rfl, fun line rest hu hn => ?listed, fun hn => ⟨fun hb => ?ends, fun b hb hne => ?more, fun he => ?stall,
    fun he => ?ioerr, exec_inLine_of_eof_of_nil, fun he hl hcfg => ?partialError, fun he hl hcfg => ?partialLine⟩⟩
  case listed => exact lineEnds_of_concludeLine (exec_inLine_of_line hn hu)
  case ends => exact lineEnds_of_concludeLine ((exec_inLine_of_byte hn hb).trans (if_pos rfl))
  case more => exact (exec_inLine_of_byte hn hb).trans (if_neg hne)
  case stall => exact exec_inLine_of_waits ⟨hn, he⟩
  case ioerr => exact raises_of_exec_eq_setInput (exec_inLine_of_ioerr hn he)
  case partialError =>
    have hexec := (exec_inLine_of_eof hn he).trans (if_neg hl)
    exact raises_of_exec_eq_setInput (hexec.trans (concludePartialLine_of_parseError hcfg))
  case partialLine =>
    have hexec := (exec_inLine_of_eof hn he).trans (if_neg hl)
    exact lineEnds_of_concludeLine (hexec.trans (concludePartialLine_of_parse hcfg))

/-! ### InByte (R153) -/

/-- R50, R153: where there is no byte, the terminal of the input decides. -/
theorem exec_inByte_of_none {s : State} (hb : s.inByteAt s.inPos = none) :
    (s.inEnd = .stall → exec .inByte s = conclude .wait s) ∧
      (s.inEnd = .ioerr → exec .inByte s = conclude (.raise .io) s) ∧
      (s.inEnd = .eof → exec .inByte s = conclude (.haltClean .inputEof) s) := by
  obtain ⟨heof, hioerr, hstall⟩ := inRead_of_none hb
  show (_ → execInByte s = _) ∧ (_ → execInByte s = _) ∧ (_ → execInByte s = _)
  exact ⟨fun he => by rw [execInByte, hstall he], fun he => by rw [execInByte, hioerr he],
    fun he => by rw [execInByte, heof he]⟩

/-- Settles O46: a byte that is there is one push; without one the terminal decides. -/
theorem inByteRule : Obligations.InByteRule := by
  intro s
  refine ⟨rfl, fun b hb hf => ?_, fun b hb hf => ?_, fun hb => ?_⟩
  · rw [exec_inByte_of_byte hb, zeroExtend_eq_setWidth]
    exact concludePush_of_not_full (s.setInput (s.inPos + 1) s.lineBuf) _ hf
  · exact raises_of_exec_eq_setInput
      ((exec_inByte_of_byte hb).trans (concludePush_of_full (s.setInput (s.inPos + 1) s.lineBuf) _ hf))
  · obtain ⟨hstall, hioerr, heof⟩ := exec_inByte_of_none hb
    exact ⟨hstall, fun he => raises_of_exec_eq (hioerr he), heof⟩

end Sys2Proof.Machine
end

section
/-! The output around an error (R203): of all that an instruction can do, only a failing write halts and adds bytes. -/

namespace Sys2Proof.Machine

/-- R203, D17, D22: a write that completes or waits has left STATE as it was, so of the three ways a write ends only the
failing one is an error. -/
theorem ExecCase.output_of_haltedError {i : Instr} {s t : State} (h : ExecCase i s t) (hs : s.status.state = .running)
    (ht : t.status.state = .haltedError) :
    t.output = s.output ∨ (t.status.err = .io ∧ ∃ bytes q, pendingWrite i s = some bytes ∧
      q <+: bytes.drop s.outTaken ∧ t.output = s.output ++ q) := by
  have hne : s.status.state ≠ .haltedError := by simp [hs]
  cases h with
  | writeError bytes k l hp =>
    exact .inr ⟨rfl, bytes, (bytes.drop s.outTaken).take k, hp, List.take_prefix k _, rfl⟩
  | written => exact absurd ht hne
  | writeWait => exact absurd ht hne
  | _ => exact .inl rfl

/-- Settles O28: the error's output is one of the cases of `exec_cases`. -/
theorem outputAroundAnError : Obligations.OutputAroundAnError := by
  intro i s t hs h ht
  exact (exec_cases i s t h).output_of_haltedError hs ht

end Sys2Proof.Machine
end

section
/-! Reset and load (R230, R231, R232): what each request of the host does, by the state it meets, and that a loaded image
runs as the instructions it encodes. -/

namespace Sys2Proof.Machine

/-! ### The host's two requests as turns (R55) -/

theorem step_of_reset {s : State} {rest : List HostEvent} (he : s.events = .reset :: rest) :
    step s = .next { s with events := rest }.hostReset := by
  rw [step_of_event he, hostTurn]

theorem step_of_load {s : State} {image : List Byte} {rest : List HostEvent} (he : s.events = .load image :: rest) :
    step s = { s with events := rest }.hostLoad image := by
  rw [step_of_event he, hostTurn]

/-! ### A load, by the state and by the image (R231) -/

/-- D25: outside IDLE a load is ignored. -/
theorem hostLoad_of_not_idle (s : State) (hne : s.status.state ≠ .idle) (image : List Byte) :
    s.hostLoad image = .next s := by
  rw [State.hostLoad, if_neg hne]

theorem hostLoad_of_loaded (s : State) {image : List Byte} {prog : List Instr} (hidle : s.status.state = .idle)
    (hwf : s.cfg.wf = true) (hd : decode s.cfg.tags s.cfg.progCap image = .loaded prog) :
    s.hostLoad image = .next (s.install prog) := by
  simp only [State.hostLoad, hidle, hwf, hd, if_true]

theorem hostLoad_of_formatError (s : State) {image : List Byte} {sub : FmtSub} {off : Nat}
    (hidle : s.status.state = .idle) (hwf : s.cfg.wf = true)
    (hd : decode s.cfg.tags s.cfg.progCap image = .formatError sub off) :
    s.hostLoad image = .next (s.enterError .format sub (BitVec.ofNat 64 off)) := by
  simp only [State.hostLoad, hidle, hwf, hd, if_true]

/-- R72: legal parameters have an injective tag map. -/
theorem tags_wf_of_wf {c : Params} (h : c.wf = true) : c.tags.wf = true := by
  rw [Params.wf, Bool.and_eq_true] at h
  exact h.1

/-- R81, R231: in IDLE the encoding of a well-formed program that fits loads that program. -/
theorem hostLoad_encodeProgram (s : State) {prog : List Instr} (hidle : s.status.state = .idle)
    (hwf : s.cfg.wf = true) (hprog : ∀ i ∈ prog, i.wf = true) (hcap : prog.length ≤ s.cfg.progCap) :
    s.hostLoad (encodeProgram s.cfg.tags prog) = .next (s.install prog) :=
  hostLoad_of_loaded s hidle hwf (decode_encodeProgram (tags_wf_of_wf hwf) hprog hcap)

/-- R101, R231: right after a load the fetch gives the first instruction of the program. -/
theorem fetch_install_cons (s : State) (i : Instr) (more : List Instr) : (s.install (i :: more)).fetch = some i := rfl

/-! ### The obligations -/

/-- Settles O15: the two parts of the image are the encoding of one program, whose first instruction the next turn
fetches. -/
theorem loadedBytesRunAsTheirInstruction : Obligations.LoadedBytesRunAsTheirInstruction := by
  intro s i more rest hwf hidle hi hmore hcap he
  have hprog : ∀ j ∈ i :: more, j.wf = true := List.forall_mem_cons.mpr ⟨hi, hmore⟩
  have hload := hostLoad_encodeProgram { s with events := .engineTurn :: rest } hidle hwf hprog hcap
  refine ⟨_, (step_of_load he).trans hload, rfl, rfl, rfl, ?_⟩
  obtain ⟨-, hturn⟩ := stepRunsFetchedInstruction (State.install { s with events := .engineTurn :: rest } (i :: more)) i
    rfl (fetch_install_cons _ i more)
  exact hturn rest rfl

/-- Settles O18: the turn is `hostReset`, whose fields are R30's; the state right after reset by its definition. -/
theorem resetFromAnyState : Obligations.ResetFromAnyState := by
  have hword : Status.idle.word = 0 := by decide
  constructor
  · intro s rest he
    exact ⟨_, step_of_reset he, rfl, rfl, rfl, rfl, hword, rfl, rfl, rfl, rfl, rfl, rfl, rfl⟩
  · exact ⟨rfl, rfl, rfl, rfl, hword, rfl, rfl⟩

/-- Settles O19: STATE decides first, then what the image decodes to. -/
theorem loadStartsOrReportsOrIsIgnored : Obligations.LoadStartsOrReportsOrIsIgnored := by
  intro s image rest he
  rw [step_of_load he]
  refine ⟨fun hne => ?_, fun hidle hwf => ⟨fun prog hd => ?_, fun sub off hd => ?_⟩⟩
  · exact hostLoad_of_not_idle { s with events := rest } hne image
  · exact hostLoad_of_loaded { s with events := rest } hidle hwf hd
  · exact ⟨_, hostLoad_of_formatError { s with events := rest } hidle hwf hd, rfl, rfl, rfl, rfl⟩

end Sys2Proof.Machine
end
